-- ==== Sys2Proof/Word.lean ====
section
/-! DEFINITION. The word types of the hardware (00_scope.md R5, R7): widths only. -/

namespace Sys2Proof

/-- An 8-bit value: a general register, a timer, a memory byte, the immediate `kk` (R5). -/
abbrev Byte := BitVec 8

/-- A 16-bit value: `I`, `PC`, a stack entry, an instruction word (R5). -/
abbrev Word := BitVec 16

/-- A 4-bit field of an instruction word; also the number of a key (R7, R18). -/
abbrev Nibble := BitVec 4

/-- The number of a general register, `V[0]` to `V[15]`: a 4-bit field (R10). -/
abbrev Reg := BitVec 4

/-- The 12-bit address immediate `nnn` (R61, R63). -/
abbrev Addr := BitVec 12

/-- `VF`, the flag register: `V[15]` (R11). -/
abbrev regF : Reg := 15#4

/-- `V[0]`, which Bnnn adds to its target (R10, R108). -/
abbrev reg0 : Reg := 0#4

end Sys2Proof
end

