-- ==== Sys2Proof/Syntax.lean ====
section
/-! DEFINITION. The 35 instructions of spec/opcode_table.json, one constructor a row, in the table's order
(30_encoding.md R65; names after R71). Operands are the fields of R61 at the widths of R61. -/

namespace Sys2Proof

inductive Instr where
  /-- `00E0` CLS (R150) -/
  | cls
  /-- `00EE` RET (R101) -/
  | ret
  /-- `0NNN` SYS nnn (R100) -/
  | sys (nnn : Addr)
  /-- `1nnn` JP nnn (R102) -/
  | jp (nnn : Addr)
  /-- `2nnn` CALL nnn (R103) -/
  | call (nnn : Addr)
  /-- `3xkk` SE Vx, kk (R104) -/
  | seImm (x : Reg) (kk : Byte)
  /-- `4xkk` SNE Vx, kk (R105) -/
  | sneImm (x : Reg) (kk : Byte)
  /-- `5xy0` SE Vx, Vy (R106) -/
  | seReg (x y : Reg)
  /-- `6xkk` LD Vx, kk (R120) -/
  | ldImm (x : Reg) (kk : Byte)
  /-- `7xkk` ADD Vx, kk (R121) -/
  | addImm (x : Reg) (kk : Byte)
  /-- `8xy0` LD Vx, Vy (R122) -/
  | ldReg (x y : Reg)
  /-- `8xy1` OR Vx, Vy (R123) -/
  | orReg (x y : Reg)
  /-- `8xy2` AND Vx, Vy (R124) -/
  | andReg (x y : Reg)
  /-- `8xy3` XOR Vx, Vy (R125) -/
  | xorReg (x y : Reg)
  /-- `8xy4` ADD Vx, Vy (R126) -/
  | addReg (x y : Reg)
  /-- `8xy5` SUB Vx, Vy (R127) -/
  | sub (x y : Reg)
  /-- `8xy6` SHR Vx (R128); `y` is decoded and ignored (R67) -/
  | shr (x y : Reg)
  /-- `8xy7` SUBN Vx, Vy (R129) -/
  | subn (x y : Reg)
  /-- `8xyE` SHL Vx (R130); `y` is decoded and ignored (R67) -/
  | shl (x y : Reg)
  /-- `9xy0` SNE Vx, Vy (R107) -/
  | sneReg (x y : Reg)
  /-- `Annn` LD I, nnn (R140) -/
  | ldI (nnn : Addr)
  /-- `Bnnn` JP V0, nnn (R108) -/
  | jpV0 (nnn : Addr)
  /-- `Cxkk` RND Vx, kk (R131) -/
  | rnd (x : Reg) (kk : Byte)
  /-- `Dxyn` DRW Vx, Vy, n (R151) -/
  | drw (x y : Reg) (n : Nibble)
  /-- `Ex9E` SKP Vx (R160) -/
  | skp (x : Reg)
  /-- `ExA1` SKNP Vx (R161) -/
  | sknp (x : Reg)
  /-- `Fx07` LD Vx, DT (R162) -/
  | ldVxDt (x : Reg)
  /-- `Fx0A` LD Vx, K (R163) -/
  | ldVxK (x : Reg)
  /-- `Fx15` LD DT, Vx (R164) -/
  | ldDtVx (x : Reg)
  /-- `Fx18` LD ST, Vx (R165) -/
  | ldStVx (x : Reg)
  /-- `Fx1E` ADD I, Vx (R141) -/
  | addI (x : Reg)
  /-- `Fx29` LD F, Vx (R142) -/
  | ldF (x : Reg)
  /-- `Fx33` LD B, Vx (R143) -/
  | ldB (x : Reg)
  /-- `Fx55` LD [I], Vx (R144): stores V0 to Vx -/
  | stRegs (x : Reg)
  /-- `Fx65` LD Vx, [I] (R145): loads V0 to Vx -/
  | ldRegs (x : Reg)
  deriving DecidableEq, Repr

end Sys2Proof
end

