-- ==== Sys2Proof/WellFormed.lean ====
section
/-! DEFINITION. Which terms of `Instr` are instructions of the hardware. Field widths already hold by
type (R61); the one check left is R64's priority: the words 0x00E0 and 0x00EE are CLS and RET, so no
`0NNN` instruction has those targets. -/

namespace Sys2Proof

/-- `0NNN` is "every other word from 0x0000 to 0x0FFF" (R64): its target is neither 0x0E0 nor 0x0EE. -/
def sysTargetOk (nnn : Addr) : Bool := nnn != 0x0E0#12 && nnn != 0x0EE#12

/-- The check on an instruction. -/
def Instr.wellFormed : Instr → Bool
  | .sys nnn => sysTargetOk nnn
  | .cls | .ret | .jp _ | .call _ | .seImm _ _ | .sneImm _ _ | .seReg _ _ | .ldImm _ _ | .addImm _ _
  | .ldReg _ _ | .orReg _ _ | .andReg _ _ | .xorReg _ _ | .addReg _ _ | .sub _ _ | .shr _ _ | .subn _ _
  | .shl _ _ | .sneReg _ _ | .ldI _ | .jpV0 _ | .rnd _ _ | .drw _ _ _ | .skp _ | .sknp _ | .ldVxDt _
  | .ldVxK _ | .ldDtVx _ | .ldStVx _ | .addI _ | .ldF _ | .ldB _ | .stRegs _ | .ldRegs _ => true

end Sys2Proof
end

