-- ==== Sys2Proof/Decode.lean ====
section
/-! DEFINITION. The decoder (30_encoding.md R61, R64 to R68), total on any bytes and rejecting by name,
and after it the encoder (R62). Neither depends on any state (R68). -/

namespace Sys2Proof

/-- Why bytes are no instruction. -/
inductive DecodeError where
  /-- The word matches no row of R65 (R66, R171). -/
  | invalidOpcode (w : Word)
  /-- Fewer than two bytes are given: every instruction is two bytes (R60). -/
  | truncated
  deriving DecidableEq, Repr

/-- What the decoder yields of a word (R61). -/
structure Fields where
  x : Reg
  y : Reg
  n : Nibble
  kk : Byte
  nnn : Addr
  deriving DecidableEq, Repr

/-- `nibbles[0] = w[15:12]`, the major opcode (R7, R61). -/
def nibble0 (w : Word) : Nibble := w.extractLsb' 12 4
/-- `nibbles[1] = w[11:8]` (R7, R61). -/
def nibble1 (w : Word) : Nibble := w.extractLsb' 8 4
/-- `nibbles[2] = w[7:4]` (R7, R61). -/
def nibble2 (w : Word) : Nibble := w.extractLsb' 4 4
/-- `nibbles[3] = w[3:0]` (R7, R61). -/
def nibble3 (w : Word) : Nibble := w.extractLsb' 0 4

/-- The field extraction of R61 (R82: it cannot fail). -/
def fieldsOf (w : Word) : Fields where
  x := nibble1 w
  y := nibble2 w
  n := nibble3 w
  kk := w.extractLsb' 0 8
  nnn := w.extractLsb' 0 12

/-- A row of the opcode map (R65): its four nibbles, `none` where the pattern has a field, and the
instruction its fields make. -/
structure Row where
  n0 : Option Nibble
  n1 : Option Nibble
  n2 : Option Nibble
  n3 : Option Nibble
  build : Fields → Instr

/-- "every literal nibble of the pattern equals the word's nibble at that place; field nibbles match
anything" (R64), for one nibble. -/
def literalMatches : Option Nibble → Nibble → Bool
  | none, _ => true
  | some lit, nib => lit == nib

/-- A row matches a word (R64). -/
def rowMatches (r : Row) (w : Word) : Bool :=
  literalMatches r.n0 (nibble0 w) && literalMatches r.n1 (nibble1 w) &&
    literalMatches r.n2 (nibble2 w) && literalMatches r.n3 (nibble3 w)

/-- A row whose only literal is the major nibble (formats NNN, XKK, XYN of R62). -/
def rowMajor (m : Nibble) (build : Fields → Instr) : Row := ⟨some m, none, none, none, build⟩
/-- A row of format XY: a major nibble and a literal low nibble (R62). -/
def rowXY (m low : Nibble) (build : Fields → Instr) : Row := ⟨some m, none, none, some low, build⟩
/-- A row of format X: a major nibble and a literal low byte (R62). -/
def rowX (m hi lo : Nibble) (build : Fields → Instr) : Row := ⟨some m, none, some hi, some lo, build⟩

/-- Rows 1 to 8 of R65, the literal patterns 00E0 and 00EE before 0NNN (R64). -/
def rowsControl : List Row := [
  ⟨some 0x0#4, some 0x0#4, some 0xE#4, some 0x0#4, fun _ => .cls⟩,
  ⟨some 0x0#4, some 0x0#4, some 0xE#4, some 0xE#4, fun _ => .ret⟩,
  rowMajor 0x0#4 fun f => .sys f.nnn,
  rowMajor 0x1#4 fun f => .jp f.nnn,
  rowMajor 0x2#4 fun f => .call f.nnn,
  rowMajor 0x3#4 fun f => .seImm f.x f.kk,
  rowMajor 0x4#4 fun f => .sneImm f.x f.kk,
  rowXY 0x5#4 0x0#4 fun f => .seReg f.x f.y]

/-- Rows 9 to 20 of R65. -/
def rowsAlu : List Row := [
  rowMajor 0x6#4 fun f => .ldImm f.x f.kk,
  rowMajor 0x7#4 fun f => .addImm f.x f.kk,
  rowXY 0x8#4 0x0#4 fun f => .ldReg f.x f.y,
  rowXY 0x8#4 0x1#4 fun f => .orReg f.x f.y,
  rowXY 0x8#4 0x2#4 fun f => .andReg f.x f.y,
  rowXY 0x8#4 0x3#4 fun f => .xorReg f.x f.y,
  rowXY 0x8#4 0x4#4 fun f => .addReg f.x f.y,
  rowXY 0x8#4 0x5#4 fun f => .sub f.x f.y,
  rowXY 0x8#4 0x6#4 fun f => .shr f.x f.y,
  rowXY 0x8#4 0x7#4 fun f => .subn f.x f.y,
  rowXY 0x8#4 0xE#4 fun f => .shl f.x f.y,
  rowXY 0x9#4 0x0#4 fun f => .sneReg f.x f.y]

/-- Rows 21 to 26 of R65. -/
def rowsMixed : List Row := [
  rowMajor 0xA#4 fun f => .ldI f.nnn,
  rowMajor 0xB#4 fun f => .jpV0 f.nnn,
  rowMajor 0xC#4 fun f => .rnd f.x f.kk,
  rowMajor 0xD#4 fun f => .drw f.x f.y f.n,
  rowX 0xE#4 0x9#4 0xE#4 fun f => .skp f.x,
  rowX 0xE#4 0xA#4 0x1#4 fun f => .sknp f.x]

/-- Rows 27 to 35 of R65. -/
def rowsF : List Row := [
  rowX 0xF#4 0x0#4 0x7#4 fun f => .ldVxDt f.x,
  rowX 0xF#4 0x0#4 0xA#4 fun f => .ldVxK f.x,
  rowX 0xF#4 0x1#4 0x5#4 fun f => .ldDtVx f.x,
  rowX 0xF#4 0x1#4 0x8#4 fun f => .ldStVx f.x,
  rowX 0xF#4 0x1#4 0xE#4 fun f => .addI f.x,
  rowX 0xF#4 0x2#4 0x9#4 fun f => .ldF f.x,
  rowX 0xF#4 0x3#4 0x3#4 fun f => .ldB f.x,
  rowX 0xF#4 0x5#4 0x5#4 fun f => .stRegs f.x,
  rowX 0xF#4 0x6#4 0x5#4 fun f => .ldRegs f.x]

/-- The opcode map of R65, in the order it is tried. -/
def opcodeTable : List Row := rowsControl ++ rowsAlu ++ rowsMixed ++ rowsF

/-- Decode and dispatch (R82, R83): the first row that matches, or `InvalidOpcode` with the whole word. -/
def decode (w : Word) : Except DecodeError Instr :=
  match opcodeTable.find? fun r => rowMatches r w with
  | some r => .ok (r.build (fieldsOf w))
  | none => .error (.invalidOpcode w)

/-- Two bytes in the order they lie in memory make a word: the lower address is the high byte (R44, R60). -/
def wordOfBytes (hi lo : Byte) : Word := hi ++ lo

/-- The bytes of a word in the order they lie in memory (R44, R60). -/
def bytesOfWord (w : Word) : List Byte := [w.extractLsb' 8 8, w.extractLsb' 0 8]

/-- Decoding the head of any byte sequence: the instruction and the bytes after it. -/
def decodeBytes : List Byte → Except DecodeError (Instr × List Byte)
  | hi :: lo :: rest =>
    match decode (wordOfBytes hi lo) with
    | .ok i => .ok (i, rest)
    | .error e => .error e
  | [_] => .error .truncated
  | [] => .error .truncated

/-- A word from its four nibbles, `nibbles[0]` highest (R7). -/
def wordOfNibbles (a b c d : Nibble) : Word := a ++ b ++ c ++ d

/-- Format NNN: major nibble and `nnn` (R62). -/
def encodeNNN (m : Nibble) (nnn : Addr) : Word := m ++ nnn
/-- Format XKK: major nibble, `x`, `kk` (R62). -/
def encodeXKK (m : Nibble) (x : Reg) (kk : Byte) : Word := m ++ x ++ kk

/-- The word of an instruction, from the patterns of R65 and the layouts of R62. -/
def encode : Instr → Word
  | .cls => 0x00E0#16
  | .ret => 0x00EE#16
  | .sys nnn => encodeNNN 0x0#4 nnn
  | .jp nnn => encodeNNN 0x1#4 nnn
  | .call nnn => encodeNNN 0x2#4 nnn
  | .seImm x kk => encodeXKK 0x3#4 x kk
  | .sneImm x kk => encodeXKK 0x4#4 x kk
  | .seReg x y => wordOfNibbles 0x5#4 x y 0x0#4
  | .ldImm x kk => encodeXKK 0x6#4 x kk
  | .addImm x kk => encodeXKK 0x7#4 x kk
  | .ldReg x y => wordOfNibbles 0x8#4 x y 0x0#4
  | .orReg x y => wordOfNibbles 0x8#4 x y 0x1#4
  | .andReg x y => wordOfNibbles 0x8#4 x y 0x2#4
  | .xorReg x y => wordOfNibbles 0x8#4 x y 0x3#4
  | .addReg x y => wordOfNibbles 0x8#4 x y 0x4#4
  | .sub x y => wordOfNibbles 0x8#4 x y 0x5#4
  | .shr x y => wordOfNibbles 0x8#4 x y 0x6#4
  | .subn x y => wordOfNibbles 0x8#4 x y 0x7#4
  | .shl x y => wordOfNibbles 0x8#4 x y 0xE#4
  | .sneReg x y => wordOfNibbles 0x9#4 x y 0x0#4
  | .ldI nnn => encodeNNN 0xA#4 nnn
  | .jpV0 nnn => encodeNNN 0xB#4 nnn
  | .rnd x kk => encodeXKK 0xC#4 x kk
  | .drw x y n => wordOfNibbles 0xD#4 x y n
  | .skp x => wordOfNibbles 0xE#4 x 0x9#4 0xE#4
  | .sknp x => wordOfNibbles 0xE#4 x 0xA#4 0x1#4
  | .ldVxDt x => wordOfNibbles 0xF#4 x 0x0#4 0x7#4
  | .ldVxK x => wordOfNibbles 0xF#4 x 0x0#4 0xA#4
  | .ldDtVx x => wordOfNibbles 0xF#4 x 0x1#4 0x5#4
  | .ldStVx x => wordOfNibbles 0xF#4 x 0x1#4 0x8#4
  | .addI x => wordOfNibbles 0xF#4 x 0x1#4 0xE#4
  | .ldF x => wordOfNibbles 0xF#4 x 0x2#4 0x9#4
  | .ldB x => wordOfNibbles 0xF#4 x 0x3#4 0x3#4
  | .stRegs x => wordOfNibbles 0xF#4 x 0x5#4 0x5#4
  | .ldRegs x => wordOfNibbles 0xF#4 x 0x6#4 0x5#4

/-- The bytes of an instruction as memory holds them (R60). -/
def encodeBytes (i : Instr) : List Byte := bytesOfWord (encode i)

/-- The first word of an instruction given as `nbits` bits numbered as the opcode table numbers them:
bits at and above `nbits` are 0 (every row of the table has 16). -/
def tableWord (nbits w : Nat) : Word := BitVec.ofNat 16 (w % 2 ^ nbits)

/-- The instruction the decoder reads from the opcode table's numbering of its bits, laid out as memory
holds it. -/
def decodeTableWord (nbits w : Nat) : Option Instr :=
  match decodeBytes (bytesOfWord (tableWord nbits w)) with
  | .ok (i, _) => some i
  | .error _ => none

end Sys2Proof
end

