-- ==== Sys2Proof/Config.lean ====
section
/-! DEFINITION. What 00_scope.md R5 marks "fixed", and the one free value: the random source.
The two parameters R5 marks "open" (`FONT`, `TIMER_TICK_IN_STEP`) are `Machine.Params`. -/

namespace Sys2Proof.Config

/-- `MEM_SIZE`: 4096 bytes (R5). -/
abbrev memSize : Nat := 4096

/-- `PROGRAM_BASE`: load address and reset `PC` (R5). -/
abbrev programBase : Nat := 0x200

/-- `MAX_PROGRAM`: the largest program in bytes, 4096 - 0x200 = 3584 (R5). -/
abbrev maxProgram : Nat := memSize - programBase

/-- `FONT_BASE`: address of the font table (R5). -/
abbrev fontBase : Nat := 0x000

/-- `FB_W` and `FB_H`: 64 columns, 32 rows (R5, R17). -/
abbrev fbWidth : Nat := 64
abbrev fbHeight : Nat := 32

/-- `STACK_DEPTH`: 16 entries (R5, R14). -/
abbrev stackDepth : Nat := 16

/-- FREE VALUE (log 1): the byte the random source answers to the draw number `n` of a run (R131, R191).
It has no body: nothing can be proved of it beyond its being a byte. -/
opaque randomByte (n : Nat) : Byte

end Sys2Proof.Config
end

