-- ==== Sys2Proof/Machine/Params.lean ====
section
/-! DEFINITION. The two parameters 00_scope.md R5 marks "open": `FONT` and `TIMER_TICK_IN_STEP`, each "a
named parameter that the model takes as an argument", with the spec's defaults. -/

namespace Sys2Proof.Machine

/-- `FONT`: 16 glyphs of 5 bytes, one glyph for each hex digit (R24). -/
abbrev Font := Vector (Vector Byte 5) 16

/-- The parameters of the hardware (R5). -/
structure Params where
  /-- The 80 font bytes (R24). -/
  font : Font
  /-- Whether a successful `step` ends with a timer tick (R86). -/
  tickInStep : Bool
  deriving DecidableEq, Repr

/-- The default glyphs (R24; PRESUMED by the spec itself, from general knowledge: log 3). -/
def defaultFont : Font := #v[
  #v[0xF0#8, 0x90#8, 0x90#8, 0x90#8, 0xF0#8],
  #v[0x20#8, 0x60#8, 0x20#8, 0x20#8, 0x70#8],
  #v[0xF0#8, 0x10#8, 0xF0#8, 0x80#8, 0xF0#8],
  #v[0xF0#8, 0x10#8, 0xF0#8, 0x10#8, 0xF0#8],
  #v[0x90#8, 0x90#8, 0xF0#8, 0x10#8, 0x10#8],
  #v[0xF0#8, 0x80#8, 0xF0#8, 0x10#8, 0xF0#8],
  #v[0xF0#8, 0x80#8, 0xF0#8, 0x90#8, 0xF0#8],
  #v[0xF0#8, 0x10#8, 0x20#8, 0x40#8, 0x40#8],
  #v[0xF0#8, 0x90#8, 0xF0#8, 0x90#8, 0xF0#8],
  #v[0xF0#8, 0x90#8, 0xF0#8, 0x10#8, 0xF0#8],
  #v[0xF0#8, 0x90#8, 0xF0#8, 0x90#8, 0x90#8],
  #v[0xE0#8, 0x90#8, 0xE0#8, 0x90#8, 0xE0#8],
  #v[0xF0#8, 0x80#8, 0x80#8, 0x80#8, 0xF0#8],
  #v[0xE0#8, 0x90#8, 0x90#8, 0x90#8, 0xE0#8],
  #v[0xF0#8, 0x80#8, 0xF0#8, 0x80#8, 0xF0#8],
  #v[0xF0#8, 0x80#8, 0xF0#8, 0x80#8, 0x80#8]]

/-- `TIMER_TICK_IN_STEP`'s default: `true` (R5, R86; log 2). -/
def defaultTickInStep : Bool := true

/-- The parameters at the spec's defaults. -/
def Params.default : Params := ⟨defaultFont, defaultTickInStep⟩

/-- The 80 bytes of a font in the order they lie from `FONT_BASE`: the glyph of digit `d` at `5*d` (R24). -/
def fontBytes (font : Font) : List Byte := font.toList.flatMap fun glyph => glyph.toList

/-- What a byte of memory holds after reset with the default font, and so what an address that `State.mem`
does not list reads as: the font table from `FONT_BASE`, 0 everywhere else (R23, R41). -/
def resetByte (a : Nat) : Byte := (fontBytes defaultFont).getD (a - Config.fontBase) 0#8

end Sys2Proof.Machine
end

