-- ==== Sys2Proof/Machine/State.lean ====
section
/-! DEFINITION. The architectural state (10_state.md section 1), its reset value (R23), and why a step can
stop. Plain data: every field is written out and compared. -/

namespace Sys2Proof.Machine

/-- The run mode of the engine (R20). -/
inductive Mode where
  | running
  | awaitingKey
  deriving DecidableEq, Repr

/-- Memory as the cells that differ from the reset image `resetByte`, addresses strictly rising. -/
abbrev Memory := List Host.Cell

/-- The framebuffer: 2048 one-bit cells, row-major (R17): 32 rows, each the 64 one-bit cells of its columns;
`fb[y*64 + x]` is bit `x` of row `y`. -/
abbrev Framebuffer := Vector (BitVec 64) 32

/-- Every cell 0. -/
def clearFramebuffer : Framebuffer := Vector.replicate 32 0#64

structure State where
  /-- `V[0]` to `V[15]` (R10) -/
  v : Vector Byte 16
  /-- `I` (R12) -/
  i : Word
  /-- `PC` (R13) -/
  pc : Word
  /-- `SP`, an integer from 0 to 16 (R14) -/
  sp : Fin 17
  /-- `stack[0]` to `stack[15]` (R14) -/
  stack : Vector Word 16
  /-- `DT`, the delay timer (R15) -/
  dt : Byte
  /-- `ST`, the sound timer (R15) -/
  st : Byte
  /-- `memory` (R16), in canonical form -/
  mem : Memory
  /-- `fb[0]` to `fb[2047]` (R17) -/
  fb : Framebuffer
  /-- `key[0]` to `key[15]` (R18) -/
  key : Vector Bool 16
  /-- `should_draw` (R19) -/
  shouldDraw : Bool
  /-- `mode` (R20) -/
  mode : Mode
  /-- `wait_x` (R20) -/
  waitX : Reg
  /-- THE MODEL'S OWN (log 1): how many bytes the random source has answered; the argument of the free
  value `Config.randomByte`. -/
  draws : Nat
  deriving DecidableEq, Repr

/-- The five error kinds (60_exceptions.md R170). Each is the spec's own error, reported to the host with
no state change (R177, R179); the model treats it as the end of the run (R180). -/
inductive Fault where
  /-- Raised by `step` at dispatch: the fetched word matches no row (R171). Safe: the spec's own error. -/
  | invalidOpcode (w : Word)
  /-- Raised by `step` at fetch (R172) and by Dxyn, Fx33, Fx55, Fx65 (R173). Safe: the spec's own error;
  the address it carries is the spec's decision D6 (log 6). -/
  | outOfBounds (address : Nat)
  /-- Raised by 2nnn when `SP = 16` (R174). Safe: the spec's own error. -/
  | stackOverflow
  /-- Raised by 00EE when `SP = 0` (R175). Safe: the spec's own error. -/
  | stackUnderflow
  /-- Raised by `load_program` alone, never by `step` (R176). Safe: the spec's own error. -/
  | romTooLarge
  deriving DecidableEq, Repr

/-- Why the model has no meaning for an instruction. -/
inductive Refusal where
  /-- Raised by an arm of `exec` whose instruction has no meaning yet; no arm raises it now. Safe. -/
  | notModelled (mnemonic : String)
  deriving DecidableEq, Repr

/-- What one instruction, or one step, answers. -/
abbrev Result := Host.Outcome State Fault Refusal

/-- The state right after `reset` (R23, R200) with the default font: memory lists nothing, since an
unlisted byte reads as the reset image. -/
def State.reset : State where
  v := Vector.replicate 16 0#8
  i := 0#16
  pc := 0x200#16
  sp := 0
  stack := Vector.replicate 16 0#16
  dt := 0#8
  st := 0#8
  mem := []
  fb := clearFramebuffer
  key := Vector.replicate 16 false
  shouldDraw := false
  mode := .running
  waitX := 0#4
  draws := 0

end Sys2Proof.Machine
end

