-- ==== Sys2Proof/Machine/Ops.lean ====
section
/-! DEFINITION. The named operations every meaning is written with: register access, the updates of each
field, memory (20_memory.md), the stack (R14), the three ways an instruction moves `PC` (R84), raising an
error (R177, R179), the timer tick (R86) and the fetch (R81). -/

namespace Sys2Proof.Machine

/-! ### Registers and the other fields -/

/-- `V[x]` (R8, R10). -/
def State.getV (s : State) (x : Reg) : Byte := s.v[x.toNat]'x.isLt

/-- `V[x] <- b` (R8, R10): no register is hardwired. -/
def State.setV (s : State) (x : Reg) (b : Byte) : State := { s with v := s.v.set x.toNat b x.isLt }

/-- The whole register file replaced (Fx65). -/
def State.setVAll (s : State) (v : Vector Byte 16) : State := { s with v := v }

/-- `I <- w` (R12). -/
def State.setI (s : State) (w : Word) : State := { s with i := w }

/-- `PC <- w` (R13). -/
def State.setPc (s : State) (w : Word) : State := { s with pc := w }

/-- The stack and `SP` replaced together (R14). -/
def State.setStack (s : State) (stack : Vector Word 16) (sp : Fin 17) : State :=
  { s with stack := stack, sp := sp }

/-- `DT <- b` (R15). -/
def State.setDt (s : State) (b : Byte) : State := { s with dt := b }

/-- `ST <- b` (R15). -/
def State.setSt (s : State) (b : Byte) : State := { s with st := b }

/-- Memory replaced by what a memory operation made of it. -/
def State.setMem (s : State) (m : Memory) : State := { s with mem := m }

/-- The framebuffer replaced by what a display operation made of it. -/
def State.setFb (s : State) (fb : Framebuffer) : State := { s with fb := fb }

/-- `should_draw <- b` (R19). -/
def State.setShouldDraw (s : State) (b : Bool) : State := { s with shouldDraw := b }

/-- `key[k] <- pressed` (R18). -/
def State.setKeyAt (s : State) (k : Nibble) (pressed : Bool) : State :=
  { s with key := s.key.set k.toNat pressed k.isLt }

/-- `key[k]` (R18). -/
def State.keyAt (s : State) (k : Nibble) : Bool := s.key[k.toNat]'k.isLt

/-- `mode <- AwaitingKey; wait_x <- x` (R163). -/
def State.enterWait (s : State) (x : Reg) : State := { s with mode := .awaitingKey, waitX := x }

/-- `mode <- Running` (R187). -/
def State.leaveWait (s : State) : State := { s with mode := .running }

/-- One more byte taken from the random source (R131: "the draw is taken once per execution"). -/
def State.countDraw (s : State) : State := { s with draws := s.draws + 1 }

/-- Row `y` of the framebuffer; there is none from 32 on. -/
def Framebuffer.row (fb : Framebuffer) (y : Nat) : BitVec 64 := fb[y]?.getD 0#64

/-- `fb[idx]`, `idx = y*64 + x` (R17): bit `x` of row `y`. -/
def Framebuffer.cell (fb : Framebuffer) (idx : Nat) : Bool := (Framebuffer.row fb (idx / 64)).getLsbD (idx % 64)

/-- `fb[idx] <- fb[idx] XOR 1` (R151). -/
def Framebuffer.flip (fb : Framebuffer) (idx : Nat) : Framebuffer :=
  fb.setIfInBounds (idx / 64) (Framebuffer.row fb (idx / 64) ^^^ BitVec.twoPow 64 (idx % 64))

/-- `fb[idx]` of a state (R17). -/
def State.cell (s : State) (idx : Nat) : Bool := Framebuffer.cell s.fb idx

/-! ### Memory -/

/-- `memory[a]`: the listed byte, or what the reset image holds there (R16, R23). -/
def Memory.read : Memory → Nat → Byte
  | [], a => resetByte a
  | (a', b) :: m, a => if a = a' then b else Memory.read m a

/-- A cell put before the cells of `m`, unless it holds what its address reads as unlisted. -/
def Memory.consCell (a : Nat) (b : Byte) (m : Memory) : Memory :=
  if b = resetByte a then m else (a, b) :: m

/-- `memory[a] <- b`, keeping the canonical form (R16, R42). -/
def Memory.write : Memory → Nat → Byte → Memory
  | [], a, b => Memory.consCell a b []
  | (a', b') :: m, a, b =>
    if a < a' then Memory.consCell a b ((a', b') :: m)
    else if a = a' then Memory.consCell a b m
    else (a', b') :: Memory.write m a b

/-- Bytes stored at increasing addresses from `a`, in the order given (R44, R54). -/
def Memory.store : Memory → Nat → List Byte → Memory
  | m, _, [] => m
  | m, a, b :: bs => Memory.store (Memory.write m a b) (a + 1) bs

/-- `count` bytes read at increasing addresses from `a` (R44). -/
def Memory.load (m : Memory) : Nat → Nat → List Byte
  | _, 0 => []
  | a, count + 1 => Memory.read m a :: Memory.load m (a + 1) count

/-- Every listed address is at least `low` and below 4096, the addresses strictly rise, and no listed byte is
what its address reads as unlisted. -/
def Memory.wfFrom : Nat → Memory → Bool
  | _, [] => true
  | low, (a, b) :: m => decide (low ≤ a) && decide (a < Config.memSize) && b != resetByte a &&
      Memory.wfFrom (a + 1) m

/-- The canonical form of memory. -/
def Memory.wf (m : Memory) : Bool := Memory.wfFrom 0 m

/-- `memory[a]` of a state. -/
def State.readByte (s : State) (a : Nat) : Byte := s.mem.read a

/-! ### Errors -/

/-- RAISING AN ERROR, the one place an instruction or the cycle does it (R177, R179): the transaction ends
and reports the error; nothing is saved, no vector is taken, no state changes. There is no return from an
error (R180: "There is no return-from-trap instruction, because there is no trap state to restore"), so no
operation stands beside it. -/
def raise (f : Fault) : Result := .fault f

/-- The bytes `base` to `base + count - 1` all exist (R42, R43); no byte exists above 4095, and the address
is an unbounded number, never reduced. -/
def spanFits (base count : Nat) : Bool := count == 0 || decide (base + (count - 1) ≤ 4095)

/-- "checks all its addresses before it changes anything" (R43): the access goes on when its whole span
exists, and otherwise raises with the lowest address above 4095 it would touch (R173). -/
def withSpan (base count : Nat) (go : Result) : Result :=
  if spanFits base count then go else raise (.outOfBounds (max base 4096))

/-! ### Moving `PC` (R84) -/

/-- A simple instruction ends: `PC <- PC + 2`. -/
def State.advance (s : State) : State := s.setPc (s.pc + 2#16)

/-- A skip: `PC + 4` in all when taken, else `PC + 2`. -/
def State.skipIf (s : State) (taken : Bool) : State := s.setPc (s.pc + if taken then 4#16 else 2#16)

/-! ### Stack (R14) -/

/-- `stack[SP] <- w; SP <- SP + 1`, or nothing when `SP = 16`. -/
def State.push (s : State) (w : Word) : Option State :=
  if h : s.sp.val < 16 then some (s.setStack (s.stack.set s.sp.val w h) ⟨s.sp.val + 1, by omega⟩)
  else none

/-- `SP <- SP - 1` and the value of `stack[SP]` there, or nothing when `SP = 0`; the entry is kept. -/
def State.pop (s : State) : Option (Word × State) :=
  if h : 0 < s.sp.val then
    some (s.stack[s.sp.val - 1]'(by omega), s.setStack s.stack ⟨s.sp.val - 1, by omega⟩)
  else none

/-! ### Timers -/

/-- One timer's part of a tick: minus 1, "clamp at 0" (R15). -/
def countDown (b : Byte) : Byte := if b = 0#8 then 0#8 else b - 1#8

/-- `TimerTick()` (R86): both timers, independently. -/
def State.tick (s : State) : State := (s.setDt (countDown s.dt)).setSt (countDown s.st)

/-- The tick a successful step ends with, when the parameter asks for it (R86). -/
def State.tickIf (s : State) (tickInStep : Bool) : State := if tickInStep then s.tick else s

/-- The sound-active signal: `ST > 0` (R189). -/
def State.soundActive (s : State) : Bool := decide (s.st ≠ 0#8)

/-! ### Fetch -/

/-- `MemRead(PC, 2)` (R81): the big-endian word at `PC` and `PC + 1`, or `OutOfBounds(PC)` when
`PC + 1 > 4095`, compared as unbounded numbers. -/
def State.fetch (s : State) : Except Fault Word :=
  if s.pc.toNat + 1 ≤ 4095 then .ok (wordOfBytes (s.readByte s.pc.toNat) (s.readByte (s.pc.toNat + 1)))
  else .error (.outOfBounds s.pc.toNat)

/-- A word laid at the address the next fetch reads, with all that the fetch needs: Running mode, and a `PC`
from which a word can be fetched (`PROGRAM_BASE` where the state has another). It stands for the host's
`load_program` (log 4). -/
def State.placeWord (s : State) (w : Word) : State :=
  let a := if s.pc.toNat + 1 ≤ 4095 then s.pc.toNat else Config.programBase
  ((s.setMem (s.mem.store a (bytesOfWord w))).setPc (BitVec.ofNat 16 a)).leaveWait

end Sys2Proof.Machine
end

