-- ==== Sys2Proof/Machine/Flags.lean ====
section
/-! DEFINITION. The value each flag-setting instruction gives `VF` (10_state.md R11, 42_alu.md R132), and
the order in which result and flag are written (40_cycle.md R89, 42_alu.md R133). -/

namespace Sys2Proof.Machine

/-- A flag as the byte `VF` holds: 1 or 0. -/
def flagByte (b : Bool) : Byte := if b then 1#8 else 0#8

/-- 8xy4: the sum exceeds 255 (R126). -/
def carryOut (a b : Byte) : Bool := decide (a.toNat + b.toNat > 255)

/-- 8xy5 and 8xy7: `minuend >= subtrahend`, no borrow (R127, R129). -/
def noBorrow (minuend subtrahend : Byte) : Bool := decide (minuend.toNat ≥ subtrahend.toNat)

/-- 8xy6: the bit shifted out at the low end (R128). -/
def bitOutLow (a : Byte) : Bool := a.getLsbD 0

/-- 8xyE: the bit shifted out at the high end (R130). -/
def bitOutHigh (a : Byte) : Bool := a.getLsbD 7

/-- "the result is written first and the flag second" (R133): with `x = 15` the flag is what remains. -/
def State.writeWithFlag (s : State) (x : Reg) (result : Byte) (flag : Bool) : State :=
  (s.setV x result).setV regF (flagByte flag)

end Sys2Proof.Machine
end

