-- ==== Sys2Proof/Machine/Alu.lean ====
section
/-! DEFINITION. The register and arithmetic instructions (42_alu.md): 6xkk, 7xkk, 8xy0 to 8xy7, 8xyE,
Cxkk. All unsigned 8-bit, reduced modulo 256 (R132); all end with `PC + 2`. -/

namespace Sys2Proof.Machine

/-- 6xkk (R120). -/
def execLdImm (x : Reg) (kk : Byte) (s : State) : Result := .next (s.setV x kk).advance

/-- 7xkk (R121): the carry is lost. -/
def execAddImm (x : Reg) (kk : Byte) (s : State) : Result := .next (s.setV x (s.getV x + kk)).advance

/-- 8xy0 (R122). -/
def execLdReg (x y : Reg) (s : State) : Result := .next (s.setV x (s.getV y)).advance

/-- 8xy1 (R123). -/
def execOr (x y : Reg) (s : State) : Result := .next (s.setV x (s.getV x ||| s.getV y)).advance

/-- 8xy2 (R124). -/
def execAnd (x y : Reg) (s : State) : Result := .next (s.setV x (s.getV x &&& s.getV y)).advance

/-- 8xy3 (R125). -/
def execXor (x y : Reg) (s : State) : Result := .next (s.setV x (s.getV x ^^^ s.getV y)).advance

/-- 8xy4 (R126). -/
def execAddReg (x y : Reg) (s : State) : Result :=
  .next (s.writeWithFlag x (s.getV x + s.getV y) (carryOut (s.getV x) (s.getV y))).advance

/-- 8xy5 (R127). -/
def execSub (x y : Reg) (s : State) : Result :=
  .next (s.writeWithFlag x (s.getV x - s.getV y) (noBorrow (s.getV x) (s.getV y))).advance

/-- 8xy6 (R128): `V[y]` is neither read nor written (R67). -/
def execShr (x _y : Reg) (s : State) : Result :=
  .next (s.writeWithFlag x (s.getV x >>> 1) (bitOutLow (s.getV x))).advance

/-- 8xy7 (R129). -/
def execSubn (x y : Reg) (s : State) : Result :=
  .next (s.writeWithFlag x (s.getV y - s.getV x) (noBorrow (s.getV y) (s.getV x))).advance

/-- 8xyE (R130): `V[y]` is neither read nor written (R67). -/
def execShl (x _y : Reg) (s : State) : Result :=
  .next (s.writeWithFlag x (s.getV x <<< 1) (bitOutHigh (s.getV x))).advance

/-- Cxkk with the random source's answer `r` given (R131). -/
def rndWith (r : Byte) (x : Reg) (kk : Byte) (s : State) : State :=
  ((s.setV x (r &&& kk)).countDraw).advance

/-- Cxkk (R131): the draw is the free value `Config.randomByte` (log 1). -/
def execRnd (x : Reg) (kk : Byte) (s : State) : Result :=
  .next (rndWith (Config.randomByte s.draws) x kk s)

end Sys2Proof.Machine
end

