-- ==== Sys2Proof/Machine/Operands.lean ====
section
/-! DEFINITION. Every operand form the spec gives: immediates (30_encoding.md R63), jump targets, the key
selector, the glyph address, decimal digits, and the registers a block transfer moves. -/

namespace Sys2Proof.Machine

/-- `zext_16(nnn)`: a 12-bit address as it goes to `PC` or `I` (R63). -/
def addrOf (nnn : Addr) : Word := nnn.setWidth 16

/-- `nnn + V[0]`, not reduced (R108). -/
def addrPlus (nnn : Addr) (b : Byte) : Word := nnn.setWidth 16 + b.setWidth 16

/-- `(I + V[x]) mod 65536` (R141). -/
def indexPlus (i : Word) (b : Byte) : Word := i + b.setWidth 16

/-- The glyph address of Fx29: `FONT_BASE + V[x] * 5`, the whole of `V[x]` (R142). -/
def glyphAddr (b : Byte) : Word := BitVec.ofNat 16 Config.fontBase + b.setWidth 16 * 5#16

/-- The key a register selects: `V[x][3:0]` (R160). -/
def keyIndex (b : Byte) : Nibble := b.extractLsb' 0 4

/-- Hundreds, tens and ones of a byte, in the order Fx33 stores them (R143). -/
def bcdDigits (b : Byte) : List Byte := [b / 100#8, (b / 10#8) % 10#8, b % 10#8]

/-- The values of `V[0]` to `V[x]`, register 0 first (R144). -/
def State.regsUpTo (s : State) (x : Reg) : List Byte := s.v.toList.take (x.toNat + 1)

/-- A register file whose registers from number `r` on take the bytes of a list, in order (R145). -/
def fillRegs (v : Vector Byte 16) : Nat → List Byte → Vector Byte 16
  | _, [] => v
  | r, b :: bs => fillRegs (v.setIfInBounds r b) (r + 1) bs

/-- The address base of the memory instructions: `I`, as an unbounded number (R42, R146). -/
def State.base (s : State) : Nat := s.i.toNat

end Sys2Proof.Machine
end

