-- ==== Sys2Proof/Machine/ControlFlow.lean ====
section
/-! DEFINITION. The control-transfer instructions (41_control_flow.md): 0NNN, 00EE, 1nnn, 2nnn, 3xkk,
4xkk, 5xy0, 9xy0, Bnnn. -/

namespace Sys2Proof.Machine

/-- 0NNN (R100): a jump; nothing is pushed. -/
def execSys (nnn : Addr) (s : State) : Result := .next (s.setPc (addrOf nnn))

/-- 00EE (R101): `StackUnderflow` when `SP = 0`; else pop and go there, adding nothing. -/
def execRet (s : State) : Result :=
  match s.pop with
  | some (w, s') => .next (s'.setPc w)
  | none => raise .stackUnderflow

/-- 1nnn (R102). -/
def execJp (nnn : Addr) (s : State) : Result := .next (s.setPc (addrOf nnn))

/-- 2nnn (R103): `StackOverflow` when `SP = 16`; else push `PC + 2` and go to `nnn`. -/
def execCall (nnn : Addr) (s : State) : Result :=
  match s.push (s.pc + 2#16) with
  | some s' => .next (s'.setPc (addrOf nnn))
  | none => raise .stackOverflow

/-- 3xkk (R104). -/
def execSeImm (x : Reg) (kk : Byte) (s : State) : Result := .next (s.skipIf (s.getV x == kk))

/-- 4xkk (R105). -/
def execSneImm (x : Reg) (kk : Byte) (s : State) : Result := .next (s.skipIf (s.getV x != kk))

/-- 5xy0 (R106). -/
def execSeReg (x y : Reg) (s : State) : Result := .next (s.skipIf (s.getV x == s.getV y))

/-- 9xy0 (R107). -/
def execSneReg (x y : Reg) (s : State) : Result := .next (s.skipIf (s.getV x != s.getV y))

/-- Bnnn (R108): always `V[0]`. -/
def execJpV0 (nnn : Addr) (s : State) : Result := .next (s.setPc (addrPlus nnn (s.getV reg0)))

end Sys2Proof.Machine
end

