-- ==== Sys2Proof/Machine/Display.lean ====
section
/-! DEFINITION. The display instructions and the framebuffer controller (44_display.md): 00E0, Dxyn. -/

namespace Sys2Proof.Machine

/-- The cell of the pixel at column `px`, row `py`, each wrapped on its own (R51, R151, R152). -/
def cellIndex (px py : Nat) : Nat := (py % Config.fbHeight) * Config.fbWidth + px % Config.fbWidth

/-- A picture and whether a cell of it went from 1 to 0 so far in this draw (R151). -/
structure Canvas where
  fb : Framebuffer
  collision : Bool
  deriving DecidableEq, Repr

/-- One sprite bit on one cell (R151): a 0 bit leaves the cell alone and is no collision. -/
def drawBit (c : Canvas) (idx : Nat) (bit : Bool) : Canvas :=
  if bit then ⟨Framebuffer.flip c.fb idx, c.collision || Framebuffer.cell c.fb idx⟩ else c

/-- The bits of one sprite row from column `col` on, `count` of them; "MSB is the leftmost pixel" (R151). -/
def drawBits (vx py : Nat) (b : Byte) : Nat → Nat → Canvas → Canvas
  | _, 0, c => c
  | col, count + 1, c =>
    drawBits vx py b (col + 1) count (drawBit c (cellIndex (vx + col) py) (b.getLsbD (7 - col)))

/-- One sprite row: 8 bits, columns 0 to 7 (R151). -/
def drawRow (vx py : Nat) (b : Byte) (c : Canvas) : Canvas := drawBits vx py b 0 8 c

/-- The sprite rows of a list, the first at screen row `py` (R151). -/
def drawRows (vx : Nat) : Nat → List Byte → Canvas → Canvas
  | _, [], c => c
  | py, b :: bs, c => drawRows vx (py + 1) bs (drawRow vx py b c)

/-- 00E0 (R150): every cell 0; `VF` and `should_draw` are not written. -/
def execCls (s : State) : Result := .next (s.setFb clearFramebuffer).advance

/-- Dxyn (R151): coordinates and sprite bytes are read before `VF` is written. -/
def execDrw (x y : Reg) (n : Nibble) (s : State) : Result :=
  withSpan s.base n.toNat
    (let c := drawRows (s.getV x).toNat (s.getV y).toNat (s.mem.load s.base n.toNat) ⟨s.fb, false⟩
     .next ((((s.setFb c.fb).setV regF (flagByte c.collision)).setShouldDraw true).advance))

end Sys2Proof.Machine
end

