-- ==== Sys2Proof/Machine/IndexMemory.lean ====
section
/-! DEFINITION. The index-register and memory instructions (43_index_memory.md): Annn, Fx1E, Fx29, Fx33,
Fx55, Fx65. A memory access checks its whole span first (20_memory.md R43) and never changes `I`. -/

namespace Sys2Proof.Machine

/-- Annn (R140). -/
def execLdI (nnn : Addr) (s : State) : Result := .next (s.setI (addrOf nnn)).advance

/-- Fx1E (R141): no flag, no error. -/
def execAddI (x : Reg) (s : State) : Result := .next (s.setI (indexPlus s.i (s.getV x))).advance

/-- Fx29 (R142). -/
def execLdF (x : Reg) (s : State) : Result := .next (s.setI (glyphAddr (s.getV x))).advance

/-- Fx33 (R143): three digit bytes at `I`, `I + 1`, `I + 2`. -/
def execLdB (x : Reg) (s : State) : Result :=
  withSpan s.base 3 (.next (s.setMem (s.mem.store s.base (bcdDigits (s.getV x)))).advance)

/-- Fx55 (R144): `V[0]` to `V[x]` at `I` to `I + x`. -/
def execStRegs (x : Reg) (s : State) : Result :=
  withSpan s.base (x.toNat + 1) (.next (s.setMem (s.mem.store s.base (s.regsUpTo x))).advance)

/-- Fx65 (R145): the bytes at `I` to `I + x` into `V[0]` to `V[x]`. -/
def execLdRegs (x : Reg) (s : State) : Result :=
  withSpan s.base (x.toNat + 1)
    (.next (s.setVAll (fillRegs s.v 0 (s.mem.load s.base (x.toNat + 1)))).advance)

end Sys2Proof.Machine
end

