-- ==== Sys2Proof/Machine/KeypadTimers.lean ====
section
/-! DEFINITION. The keypad and timer instructions (45_keypad_timers.md): Ex9E, ExA1, Fx07, Fx0A, Fx15,
Fx18. -/

namespace Sys2Proof.Machine

/-- Ex9E (R160): the key is selected by the low nibble of `V[x]`. -/
def execSkp (x : Reg) (s : State) : Result := .next (s.skipIf (s.keyAt (keyIndex (s.getV x))))

/-- ExA1 (R161). -/
def execSknp (x : Reg) (s : State) : Result := .next (s.skipIf (!s.keyAt (keyIndex (s.getV x))))

/-- Fx07 (R162): `DT` before the tick that may end this step. -/
def execLdVxDt (x : Reg) (s : State) : Result := .next (s.setV x s.dt).advance

/-- Fx0A (R163): only enters the wait; `PC` keeps the address of this instruction. -/
def execLdVxK (x : Reg) (s : State) : Result := .next (s.enterWait x)

/-- Fx15 (R164). -/
def execLdDtVx (x : Reg) (s : State) : Result := .next (s.setDt (s.getV x)).advance

/-- Fx18 (R165). -/
def execLdStVx (x : Reg) (s : State) : Result := .next (s.setSt (s.getV x)).advance

end Sys2Proof.Machine
end

