-- ==== Sys2Proof/Machine/Cycle.lean ====
section
/-! DEFINITION. The fetch-decode-execute cycle (40_cycle.md): what one `step` does for any value of the
parameters, and the outcome it reports. -/

namespace Sys2Proof.Machine

/-- Fetch, decode and dispatch (R81 to R83): the instruction at `PC`, or the error of the fetch or of the
dispatch, in that order (R178). -/
def State.nextInstr (s : State) : Except Fault Instr :=
  match s.fetch with
  | .error f => .error f
  | .ok w =>
    match decode w with
    | .ok i => .ok i
    | .error _ => .error (.invalidOpcode w)

/-- The timer tick that ends a step which raised nothing (R80, R86). -/
def Outcome.tickIf (tickInStep : Bool) : Result → Result
  | .next s => .next (s.tickIf tickInStep)
  | .fault f => .fault f
  | .refused r => .refused r

/-- `step()` (R80): in Running mode fetch, decode, dispatch, execute, tick; in AwaitingKey mode only the
tick (R88). -/
def cycle (p : Params) (s : State) : Result :=
  match s.mode with
  | .awaitingKey => .next (s.tickIf p.tickInStep)
  | .running =>
    match s.nextInstr with
    | .error f => raise f
    | .ok i => Outcome.tickIf p.tickInStep (exec i s)

/-- Whether the instruction is Dxyn. -/
def Instr.isDraw : Instr → Bool
  | .drw _ _ _ => true
  | .cls | .ret | .sys _ | .jp _ | .call _ | .seImm _ _ | .sneImm _ _ | .seReg _ _ | .ldImm _ _ | .addImm _ _
  | .ldReg _ _ | .orReg _ _ | .andReg _ _ | .xorReg _ _ | .addReg _ _ | .sub _ _ | .shr _ _ | .subn _ _
  | .shl _ _ | .sneReg _ _ | .ldI _ | .jpV0 _ | .rnd _ _ | .skp _ | .sknp _ | .ldVxDt _
  | .ldVxK _ | .ldDtVx _ | .ldStVx _ | .addI _ | .ldF _ | .ldB _ | .stRegs _ | .ldRegs _ => false

/-- `draw_occurred` of the step from `s` (R87): the step executes Dxyn, "whatever it drew"; false in
AwaitingKey mode. -/
def State.drawsNext (s : State) : Bool :=
  match s.mode with
  | .awaitingKey => false
  | .running =>
    match s.nextInstr with
    | .error _ => false
    | .ok i => Instr.isDraw i

end Sys2Proof.Machine
end

