-- ==== Sys2Proof/Machine/Transactions.lean ====
section
/-! DEFINITION. The host interface (60_exceptions.md R186 to R192, 70_reset_and_hazards.md R200): the eight
atomic transactions, what each answers, and any finite sequence of them. -/

namespace Sys2Proof.Machine

/-- What the host may invoke between steps (R186). The index of `setKey` has 4 bits: "an index above 15 is
outside the transaction's type" (R187). -/
inductive Transaction where
  | reset
  | loadProgram (bytes : List Byte)
  | step
  | tickTimers
  | setKey (k : Nibble) (pressed : Bool)
  | readFramebuffer
  | takeDrawFlag
  | isSoundActive
  deriving DecidableEq, Repr

/-- What a transaction answers. -/
inductive Answer where
  /-- Nothing to report: the transaction is done (for `loadProgram`: ok). -/
  | done
  /-- The outcome of a step (R87). -/
  | outcome (drawOccurred soundActive : Bool)
  /-- The 2048 cells, cell `i` being column `i mod 64` of row `i div 64` (R188). -/
  | frame (cells : Framebuffer)
  /-- A boolean answer (R188, R189). -/
  | flag (b : Bool)
  /-- The error of a step or of `loadProgram` (R170). -/
  | error (f : Fault)
  /-- The model has no meaning for the instruction; no instruction answers so now. -/
  | refused (r : Refusal)
  deriving DecidableEq, Repr

/-- The state after `reset` for any font (R23, R200): the font's bytes over zeroed memory. -/
def State.resetFor (p : Params) : State :=
  State.reset.setMem (Memory.store [] Config.fontBase (fontBytes p.font))

/-- `reset` (R200): rebuilds every piece of state of the spec. The count of random bytes drawn is no state of
the spec and goes on, so that a reset does not make the random source repeat itself (log 1). -/
def resetTransaction (p : Params) (s : State) : State := { State.resetFor p with draws := s.draws }

/-- `load_program` (R190): the bytes from 0x200 on, or `RomTooLarge` and nothing copied (R176). -/
def loadProgram (bytes : List Byte) (s : State) : State × Answer :=
  if bytes.length > Config.maxProgram then (s, .error .romTooLarge)
  else (s.setMem (s.mem.store Config.programBase bytes), .done)

/-- `set_key` (R187): records the key; a press during a wait also completes it: `V[wait_x] <- k`,
`PC <- PC + 2`, Running (R163). -/
def setKey (k : Nibble) (pressed : Bool) (s : State) : State :=
  let s' := s.setKeyAt k pressed
  match pressed, s.mode with
  | true, .awaitingKey => ((s'.setV s.waitX (k.setWidth 8)).advance).leaveWait
  | true, .running => s'
  | false, .awaitingKey => s'
  | false, .running => s'

/-- `step` as a transaction (R80, R87): the outcome, or the error with the state as it was (R177). The
sound-active signal is read after the tick. -/
def stepTransaction (p : Params) (s : State) : State × Answer :=
  match cycle p s with
  | .next s' => (s', .outcome s.drawsNext s'.soundActive)
  | .fault f => (s, .error f)
  | .refused r => (s, .refused r)

/-- One transaction: the state it leaves and its answer (R186). -/
def transact (p : Params) (t : Transaction) (s : State) : State × Answer :=
  match t with
  | .reset => (resetTransaction p s, .done)
  | .loadProgram bytes => loadProgram bytes s
  | .step => stepTransaction p s
  | .tickTimers => (s.tick, .done)
  | .setKey k pressed => (setKey k pressed s, .done)
  | .readFramebuffer => (s, .frame s.fb)
  | .takeDrawFlag => (s.setShouldDraw false, .flag s.shouldDraw)
  | .isSoundActive => (s, .flag s.soundActive)

/-- Any finite sequence of transactions, in order (R192): the state at the end and the answers. -/
def runTransactions (p : Params) : List Transaction → State → State × List Answer
  | [], s => (s, [])
  | t :: ts, s =>
    let (s', a) := transact p t s
    let (s'', as) := runTransactions p ts s'
    (s'', a :: as)

end Sys2Proof.Machine
end

