-- ==== Sys2Proof/Machine/Step.lean ====
section
/-! DEFINITION. The machine's step: the cycle of 40_cycle.md R80 at the spec's default parameters (R5); and
where its next instruction is fetched from. -/

namespace Sys2Proof.Machine

/-- `step` (R80) with `FONT` and `TIMER_TICK_IN_STEP` at their defaults (log 2, log 3). -/
def step (s : State) : Host.Outcome State Fault Refusal := Sys2Proof.Machine.cycle Params.default s

/-- `s` with the given instruction where `step` fetches its next one (log 4). -/
def State.withFetchWord (s : State) (nbits w : Nat) : State := s.placeWord (tableWord nbits w)

end Sys2Proof.Machine
end

