-- ==== Sys2Proof/Safety.lean ====
section
/-! DEFINITION. The terms claims are stated in: words written out from the patterns of 30_encoding.md R65,
the illegal words of R66, what a step leaves unchanged, the invariant of the machine, and the closed form of
a sprite (44_display.md R151). -/

namespace Sys2Proof.Safety

open Sys2Proof.Machine

/-! ### Words as numbers, from the patterns of R65 -/

/-- A word of format NNN: major nibble `m`, then `nnn` (R62). -/
def wordNNN (m : Nat) (nnn : Addr) : Word := BitVec.ofNat 16 (4096 * m + nnn.toNat)

/-- A word of format XKK (R62). -/
def wordXKK (m : Nat) (x : Reg) (kk : Byte) : Word := BitVec.ofNat 16 (4096 * m + 256 * x.toNat + kk.toNat)

/-- A word of format XY, or of XYN with the low nibble `n` (R62). -/
def wordXYN (m : Nat) (x y : Reg) (n : Nat) : Word :=
  BitVec.ofNat 16 (4096 * m + 256 * x.toNat + 16 * y.toNat + n)

/-- A word of format X: major nibble, `x`, literal low byte (R62). -/
def wordX (m : Nat) (x : Reg) (low : Nat) : Word := BitVec.ofNat 16 (4096 * m + 256 * x.toNat + low)

/-- The table of illegal words (R66). -/
def illegalWord (w : Word) : Bool :=
  let major := w.toNat / 4096
  let low := w.toNat % 16
  let kk := w.toNat % 256
  (major == 0x5 && low != 0) ||
  (major == 0x8 && [0x8, 0x9, 0xA, 0xB, 0xC, 0xD, 0xF].contains low) ||
  (major == 0x9 && low != 0) ||
  (major == 0xE && !([0x9E, 0xA1].contains kk)) ||
  (major == 0xF && !([0x07, 0x0A, 0x15, 0x18, 0x1E, 0x29, 0x33, 0x55, 0x65].contains kk))

/-- Two rows of the opcode map match a common word: no nibble has two different literals (R64). -/
def rowsOverlap (r q : Row) : Bool :=
  let agree : Option Nibble → Option Nibble → Bool := fun a b =>
    match a, b with
    | some u, some v => u == v
    | some _, none => true
    | none, some _ => true
    | none, none => true
  agree r.n0 q.n0 && agree r.n1 q.n1 && agree r.n2 q.n2 && agree r.n3 q.n3

/-! ### Runs -/

/-- Instructions executed one after another, each from the state the one before it left, stopping at the
first that raises: "effects of instruction N are fully visible before instruction N+1" (R92). -/
def runAll : List Instr → State → Result
  | [], s => .next s
  | i :: is, s =>
    match exec i s with
    | .next t => runAll is t
    | .fault f => .fault f
    | .refused r => .refused r

/-- The state with one tick taken off its timers when the parameter asks for it (R86). -/
def tickedFor (p : Params) (s : State) : State := if p.tickInStep then s.tick else s

/-- The next step from `s` executes `i`: Running mode, and the two bytes at `PC` exist and decode to `i`. -/
def AboutToRun (i : Instr) (s : State) : Prop :=
  s.mode = .running ∧ s.pc.toNat ≤ 4094 ∧
  decodeBytes [s.readByte s.pc.toNat, s.readByte (s.pc.toNat + 1)] = .ok (i, [])

/-! ### What is left unchanged -/

/-- The pieces of state other than the general registers and `PC` (10_state.md section 1; `draws` is the
model's own, log 1). -/
inductive Part where
  | index
  | stack
  | delay
  | sound
  | memory
  | framebuffer
  | keypad
  | drawFlag
  | waiting
  | draws
  deriving DecidableEq, Repr

/-- A piece of state is the same in two states; memory and the framebuffer through every byte and cell. -/
def SamePart : Part → State → State → Prop
  | .index, s, t => t.i = s.i
  | .stack, s, t => t.sp = s.sp ∧ t.stack = s.stack
  | .delay, s, t => t.dt = s.dt
  | .sound, s, t => t.st = s.st
  | .memory, s, t => ∀ a, t.readByte a = s.readByte a
  | .framebuffer, s, t => ∀ idx, t.cell idx = s.cell idx
  | .keypad, s, t => ∀ k, t.keyAt k = s.keyAt k
  | .drawFlag, s, t => t.shouldDraw = s.shouldDraw
  | .waiting, s, t => t.mode = s.mode ∧ t.waitX = s.waitX
  | .draws, s, t => t.draws = s.draws

/-- From `s` to `t` every register not listed and every part not listed is unchanged; `PC` may change. -/
def Frame (regs : List Reg) (parts : List Part) (s t : State) : Prop :=
  (∀ r, r ∉ regs → t.getV r = s.getV r) ∧ ∀ p, p ∉ parts → SamePart p s t

/-- Every byte outside `base` to `base + count - 1` reads as before. -/
def SameOutside (base count : Nat) (s t : State) : Prop :=
  ∀ a, a < base ∨ base + count ≤ a → t.readByte a = s.readByte a

/-- The registers an instruction may write, from its rule: its destination, and `VF` for the six
instructions of R11. -/
def mayWriteReg : Instr → Reg → Bool
  | .ldImm x _, r | .addImm x _, r | .ldReg x _, r | .orReg x _, r | .andReg x _, r | .xorReg x _, r
  | .rnd x _, r | .ldVxDt x, r => r == x
  | .addReg x _, r | .sub x _, r | .shr x _, r | .subn x _, r | .shl x _, r => r == x || r == regF
  | .drw _ _ _, r => r == regF
  | .ldRegs x, r => decide (r.toNat ≤ x.toNat)
  | .cls, _ | .ret, _ | .sys _, _ | .jp _, _ | .call _, _ | .seImm _ _, _ | .sneImm _ _, _ | .seReg _ _, _
  | .sneReg _ _, _ | .ldI _, _ | .jpV0 _, _ | .skp _, _ | .sknp _, _ | .ldVxK _, _ | .ldDtVx _, _
  | .ldStVx _, _ | .addI _, _ | .ldF _, _ | .ldB _, _ | .stRegs _, _ => false

/-- The other pieces of state an instruction may write: the column "written by" of 10_state.md section 1,
and the model's count of draws for Cxkk. -/
def mayWritePart : Instr → List Part
  | .ldI _ | .addI _ | .ldF _ => [.index]
  | .call _ | .ret => [.stack]
  | .ldDtVx _ => [.delay]
  | .ldStVx _ => [.sound]
  | .ldB _ | .stRegs _ => [.memory]
  | .cls => [.framebuffer]
  | .drw _ _ _ => [.framebuffer, .drawFlag]
  | .ldVxK _ => [.waiting]
  | .rnd _ _ => [.draws]
  | .sys _ | .jp _ | .seImm _ _ | .sneImm _ _ | .seReg _ _ | .ldImm _ _ | .addImm _ _ | .ldReg _ _ | .orReg _ _
  | .andReg _ _ | .xorReg _ _ | .addReg _ _ | .sub _ _ | .shr _ _ | .subn _ _ | .shl _ _ | .sneReg _ _
  | .jpV0 _ | .skp _ | .sknp _ | .ldVxDt _ | .ldRegs _ => []

/-! ### The invariant -/

/-- What every run keeps: memory in canonical form, `PC` at most 0x10FE (R13), the return addresses in use at
most 4096 (R103), and during a wait `PC` at an instruction that could be fetched (R20). -/
def Inv (s : State) : Prop :=
  Memory.wf s.mem = true ∧ s.pc.toNat ≤ 0x10FE ∧
  (∀ k (h : k < 16), k < s.sp.val → s.stack[k].toNat ≤ 4096) ∧
  (s.mode = .awaitingKey → s.pc.toNat ≤ 4094)

/-- Two states that differ at most in the stack entries at and above `SP` (R14). -/
def SameLiveStack (s t : State) : Prop :=
  t = s.setStack t.stack s.sp ∧ ∀ k (h : k < 16), k < s.sp.val → t.stack[k] = s.stack[k]

/-! ### The sprite of a draw -/

/-- The sprite bit that falls on column `px`, row `py` of the screen when the sprite of `n` rows at `base`
is drawn from column `vx`, row `vy` (R151): the pixel's distance from the start, wrapped each way, is a
column below 8 and a row below `n`, and the most significant bit of a row is its column 0. -/
def spriteBit (s : State) (base n vx vy px py : Nat) : Bool :=
  let col := (px + 64 - vx % 64) % 64
  let row := (py + 32 - vy % 32) % 32
  decide (col < 8) && decide (row < n) && (s.readByte (base + row)).getLsbD (7 - col)

/-- Some cell of the screen is 1 and has a 1 bit of the sprite on it: the cell goes from 1 to 0 (R151). -/
def Collides (s : State) (base n vx vy : Nat) : Prop :=
  ∃ px py, px < 64 ∧ py < 32 ∧ s.cell (py * 64 + px) = true ∧ spriteBit s base n vx vy px py = true

end Sys2Proof.Safety
end

