-- ==== Sys2Proof/Certificates/Slice0/Obligations.lean ====
section
/-! DEFINITION. The statements for the provers, each from numbered rules or sections of spec/. Where a clause
rests on a decision of the spec (92_eei_decisions.md) or on a choice of the model (a log entry), the
docstring names it. -/

open Sys2Proof Sys2Proof.Machine Sys2Proof.Safety

/-- The words of 95_test_vectors.md T-DEC1 to T-DEC9, one word of each further family, and the illegal words
0x5001, 0x8008, 0xE09F and 0xF056 decode to the instruction, or the InvalidOpcode, the spec gives.
[95_test_vectors.md 2.1 (T-DEC1 to T-DEC21); 30_encoding.md section 2] -/
def Obligations.WrittenOutWordsDecode : Prop :=
  decode 0xD123#16 = .ok (.drw 1#4 2#4 3#4) ∧ decode 0x8AB4#16 = .ok (.addReg 10#4 11#4) ∧
  decode 0x00E0#16 = .ok .cls ∧ decode 0x00EE#16 = .ok .ret ∧
  decode 0x00E1#16 = .ok (.sys 0x0E1#12) ∧ decode 0x0000#16 = .ok (.sys 0#12) ∧
  decode 0x8AB6#16 = .ok (.shr 10#4 11#4) ∧ decode 0xF165#16 = .ok (.ldRegs 1#4) ∧
  decode 0x2210#16 = .ok (.call 0x210#12) ∧ decode 0xE29E#16 = .ok (.skp 2#4) ∧
  decode 0xF10A#16 = .ok (.ldVxK 1#4) ∧ decode 0xC10F#16 = .ok (.rnd 1#4 0x0F#8) ∧
  decode 0xFFFF#16 = .error (.invalidOpcode 0xFFFF#16) ∧ decode 0x5001#16 = .error (.invalidOpcode 0x5001#16) ∧
  decode 0x8008#16 = .error (.invalidOpcode 0x8008#16) ∧ decode 0xE09F#16 = .error (.invalidOpcode 0xE09F#16) ∧
  decode 0xF056#16 = .error (.invalidOpcode 0xF056#16)

/-- For every well-formed instruction, with every operand at every value its field admits, the decoder reads the
instruction back from the word and from the two bytes the encoder writes. [30_encoding.md section 2 (decoder
fields and formats); 30_encoding.md section 3 (dispatch and opcode map)] -/
def Obligations.EncodeThenDecodeGivesTheInstruction : Prop :=
  ∀ i : Instr, i.wellFormed = true →
    decode (encode i) = .ok i ∧ decodeBytes (encodeBytes i) = .ok (i, [])

/-- For every word the decoder accepts, the instruction it gives is well-formed and encodes to that very word,
so no two words have one meaning by a dropped bit. [30_encoding.md section 2 (decoder fields and formats);
30_encoding.md section 3 (dispatch and opcode map)] -/
def Obligations.DecodeThenEncodeGivesTheWord : Prop :=
  ∀ (w : Word) (i : Instr), decode w = .ok i → i.wellFormed = true ∧ encode i = w

/-- The opcode map has 35 rows, and of two different rows a word matches both only when the later one is the row
of 0NNN, the third, which the rows 00E0 and 00EE precede. [30_encoding.md section 3 (dispatch);
92_eei_decisions.md D29] -/
def Obligations.OnlySysOverlapsOtherRows : Prop :=
  opcodeTable.length = 35 ∧
  ∀ (a b : Nat) (r q : Row), opcodeTable[a]? = some r → opcodeTable[b]? = some q → a < b →
    (rowsOverlap r q = true ↔ b = 2)

/-- In Running mode, when the bytes at PC and PC + 1 exist and decode to an instruction, that instruction is
well-formed and the cycle, for any parameters, answers what exec answers, with one timer tick added to a
next state when TIMER_TICK_IN_STEP is true, and step is the cycle at the default parameters, where it is
true (the spec's default: log 2). [40_cycle.md sections 1 to 5; 00_scope.md section 5 (TIMER_TICK_IN_STEP,
default true)] -/
def Obligations.StepRunsTheDecodedInstruction : Prop :=
  ∀ (p : Params) (s : State) (i : Instr), AboutToRun i s →
    i.wellFormed = true ∧
    cycle p s = (match exec i s with
      | .next t => .next (if p.tickInStep then t.tick else t)
      | .fault f => .fault f
      | .refused r => .refused r) ∧
    step s = (match exec i s with
      | .next t => .next t.tick
      | .fault f => .fault f
      | .refused r => .refused r)

/-- A word matches no row of the opcode map exactly when the table of illegal words lists it, and a step in
Running mode that fetches such a word answers InvalidOpcode with that word and leaves the whole state, PC
with it, as it was. A word of the table is raised as InvalidOpcode by no other cause. [R171] -/
def Obligations.UnmatchedWordRaisesInvalidOpcode : Prop :=
  (∀ w : Word, (∀ r ∈ opcodeTable, rowMatches r w = false) ↔ illegalWord w = true) ∧
  (∀ (p : Params) (s : State) (w : Word), s.mode = .running → s.fetch = .ok w →
    (illegalWord w = true → transact p .step s = (s, .error (.invalidOpcode w))) ∧
    (∀ u, (transact p .step s).2 = .error (.invalidOpcode u) → u = w ∧ illegalWord w = true))

/-- For PC up to 4094 the fetched word is 256 times the byte at PC plus the byte at PC + 1, whatever the parity
of PC, and from 4095 on a step in Running mode answers OutOfBounds with the value of PC (the spec's decision
D6) and changes nothing. [40_cycle.md section 2 (fetch); 20_memory.md sections 3 and 4; 92_eei_decisions.md
D4 and D6] -/
def Obligations.FetchIsBigEndianOrOutOfBounds : Prop :=
  (∀ s : State, s.pc.toNat ≤ 4094 → ∃ w, s.fetch = .ok w ∧
    w.toNat = 256 * (s.readByte s.pc.toNat).toNat + (s.readByte (s.pc.toNat + 1)).toNat) ∧
  (∀ (p : Params) (s : State), s.mode = .running → 4095 ≤ s.pc.toNat →
    transact p .step s = (s, .error (.outOfBounds s.pc.toNat)))

/-- In AwaitingKey mode a step leaves everything as it is but for one timer tick when TIMER_TICK_IN_STEP is
true, and answers the outcome with draw_occurred false and sound_active = (ST > 0) after that tick (the
spec's decision D16). [40_cycle.md section 7; 92_eei_decisions.md D16] -/
def Obligations.StepWhileAwaitingOnlyTicks : Prop :=
  ∀ (p : Params) (s : State), s.mode = .awaitingKey →
    transact p .step s = (tickedFor p s, .outcome false (decide (0 < (tickedFor p s).st.toNat)))

/-- The tick_timers transaction answers, in either run mode, a state whose DT and ST are one less, a 0 staying
0, the two independent, with PC and every other piece of state unchanged. [10_state.md section 6;
40_cycle.md section 5; 60_exceptions.md section 5 (tick_timers); 92_eei_decisions.md D34] -/
def Obligations.TimerTickCountsDownToZero : Prop :=
  ∀ (p : Params) (s : State), ∃ t, transact p .tickTimers s = (t, .done) ∧
    t.dt.toNat = s.dt.toNat - 1 ∧ t.st.toNat = s.st.toNat - 1 ∧ t.pc = s.pc ∧ Frame [] [.delay, .sound] s t

/-- When a step executes an instruction that raises nothing, its answer is the outcome whose first part is true
exactly when the instruction is Dxyn, and whose second part is ST > 0 in the state after the step's own
tick. [40_cycle.md section 6; 92_eei_decisions.md D13] -/
def Obligations.StepReportsDrawAndSound : Prop :=
  ∀ (p : Params) (s t : State) (i : Instr), AboutToRun i s → exec i s = .next t →
    ∃ d, transact p .step s = (tickedFor p t, .outcome d (decide (0 < (tickedFor p t).st.toNat))) ∧
      (d = true ↔ ∃ x y n, i = .drw x y n)

/-- Whatever error a step answers, the state after it is the state before it, timers included, and of two steps
with no host transaction between both answer that error and leave that state. [60_exceptions.md section 2
(precision); 40_cycle.md section 9; 92_eei_decisions.md D17 and D24] -/
def Obligations.FailedStepChangesNothingAndRepeats : Prop :=
  ∀ (p : Params) (s : State) (f : Fault), (transact p .step s).2 = .error f →
    (transact p .step s).1 = s ∧ runTransactions p [.step, .step] s = (s, [.error f, .error f])

/-- exec never refuses, and when it answers a fault the instruction is 2nnn with SP = 16 (StackOverflow), 00EE
with SP = 0 (StackUnderflow), or Dxyn, Fx33, Fx55 or Fx65 with a byte above 4095 in its span
(OutOfBounds(max(I, 4096))). That a data access is checked, and the address reported, are the spec's own
decisions D5 and D6 (log 6). [60_exceptions.md section 2 (priority); 60_exceptions.md section 1;
92_eei_decisions.md D5 and D6] -/
def Obligations.OnlyTheListedErrorsArise : Prop :=
  (∀ (i : Instr) (s : State) (r : Refusal), exec i s ≠ .refused r) ∧
  (∀ (i : Instr) (s : State) (f : Fault), exec i s = .fault f →
    (f = .stackOverflow ∧ s.sp.val = 16 ∧ ∃ nnn, i = .call nnn) ∨
    (f = .stackUnderflow ∧ s.sp.val = 0 ∧ i = .ret) ∨
    (f = .outOfBounds (max s.i.toNat 4096) ∧
      ((∃ x, i = .ldB x ∧ 4095 < s.i.toNat + 2) ∨
       (∃ x, i = .stRegs x ∧ 4095 < s.i.toNat + x.toNat) ∨
       (∃ x, i = .ldRegs x ∧ 4095 < s.i.toNat + x.toNat) ∨
       (∃ x y n, i = .drw x y n ∧ n ≠ 0#4 ∧ 4095 < s.i.toNat + (n.toNat - 1)))))

/-- Every word 0NNN but 00E0 and 00EE decodes to SYS, and SYS always completes with PC = nnn, the stack, SP and
everything else unchanged (the spec's decision D30). [41_control_flow.md 0NNN: SYS nnn; 90_conflicts.md C4;
92_eei_decisions.md D29 and D30] -/
def Obligations.SysJumpsAndPushesNothing : Prop :=
  ∀ (nnn : Addr) (s : State),
    (nnn ≠ 0x0E0#12 → nnn ≠ 0x0EE#12 → decode (wordNNN 0x0 nnn) = .ok (.sys nnn)) ∧
    ∃ t, exec (.sys nnn) s = .next t ∧ t.pc.toNat = nnn.toNat ∧ Frame [] [] s t

/-- The word 1nnn decodes to JP nnn, which always completes with PC = nnn (zero-extended) and everything else
unchanged, so that it changes nothing at all when nnn is its own address, and with nnn = 0xFFF the next
fetch raises OutOfBounds(0xFFF). [R102] -/
def Obligations.JpJumpsToTarget : Prop :=
  ∀ (nnn : Addr) (s : State), decode (wordNNN 0x1 nnn) = .ok (.jp nnn) ∧
    ∃ t, exec (.jp nnn) s = .next t ∧ t.pc.toNat = nnn.toNat ∧ Frame [] [] s t ∧
      (s.pc.toNat = nnn.toNat → t = s) ∧
      (nnn = 0xFFF#12 → t.fetch = .error (.outOfBounds 0xFFF))

/-- With SP below 16 CALL completes: stack[SP] holds PC + 2, every other stack entry is as before, SP is one
more, PC is nnn, and everything else is unchanged. [41_control_flow.md 2nnn: CALL nnn; 10_state.md section
5; 92_eei_decisions.md D2 and D32] -/
def Obligations.CallPushesReturnAddressAndJumps : Prop :=
  ∀ (nnn : Addr) (s : State), decode (wordNNN 0x2 nnn) = .ok (.call nnn) ∧
    ∀ h : s.sp.val < 16, ∃ t, exec (.call nnn) s = .next t ∧ t.pc.toNat = nnn.toNat ∧
      t.sp.val = s.sp.val + 1 ∧ t.stack[s.sp.val] = s.pc + 2#16 ∧
      (∀ (k : Nat) (hk : k < 16), k ≠ s.sp.val → t.stack[k] = s.stack[k]) ∧ Frame [] [.stack] s t

/-- CALL answers StackOverflow exactly when SP is 16, a step that does so leaves the state as it was, so nothing
is pushed and PC is not changed, and from an empty stack 16 calls in a row complete and any 17th raises
StackOverflow. [R174] -/
def Obligations.SeventeenthNestedCallOverflows : Prop :=
  (∀ (nnn : Addr) (s : State), exec (.call nnn) s = .fault .stackOverflow ↔ s.sp.val = 16) ∧
  (∀ (p : Params) (nnn : Addr) (s : State), AboutToRun (.call nnn) s → s.sp.val = 16 →
    transact p .step s = (s, .error .stackOverflow)) ∧
  (∀ (calls : List Addr) (nnn : Addr) (s : State), s.sp.val = 0 → calls.length = 16 →
    (∃ t, runAll (calls.map Instr.call) s = .next t ∧ t.sp.val = 16) ∧
    runAll ((calls ++ [nnn]).map Instr.call) s = .fault .stackOverflow)

/-- With SP above 0 RET completes: SP is one less, PC is the entry that was on top, as it stands, the stack
entries are all kept, and everything else is unchanged (the spec's decisions D2 and D31).
[41_control_flow.md 00EE: RET; 90_conflicts.md C1; 92_eei_decisions.md D2 and D31] -/
def Obligations.RetPopsReturnAddress : Prop :=
  decode 0x00EE#16 = .ok .ret ∧
  ∀ (s : State) (h : 0 < s.sp.val), ∃ t, exec .ret s = .next t ∧
    t.pc = s.stack[s.sp.val - 1]'(Nat.lt_of_lt_of_le (Nat.sub_lt h Nat.one_pos) (Nat.le_of_lt_succ s.sp.isLt)) ∧
    t.sp.val = s.sp.val - 1 ∧ t.stack = s.stack ∧ Frame [] [.stack] s t

/-- RET answers StackUnderflow exactly when SP is 0, and a step that does so leaves the state as it was, SP at 0
and PC unchanged. [R175] -/
def Obligations.RetUnderflowsOnEmptyStack : Prop :=
  (∀ s : State, exec .ret s = .fault .stackUnderflow ↔ s.sp.val = 0) ∧
  (∀ (p : Params) (s : State), AboutToRun .ret s → s.sp.val = 0 →
    transact p .step s = (s, .error .stackUnderflow))

/-- With SP below 16, CALL and then RET complete with PC two more than the call's address, SP as before the
call, every stack entry in use as before, and everything but the stack unchanged (the winning reading of
conflict C1). [41_control_flow.md 2nnn: CALL nnn (round trip); 90_conflicts.md C1] -/
def Obligations.CallThenRetResumesAfterTheCall : Prop :=
  ∀ (nnn : Addr) (s : State), s.sp.val < 16 → ∃ t, runAll [.call nnn, .ret] s = .next t ∧
    t.pc = s.pc + 2#16 ∧ t.sp = s.sp ∧ (∀ (k : Nat) (hk : k < 16), k < s.sp.val → t.stack[k] = s.stack[k]) ∧
    Frame [] [.stack] s t

/-- The words 3xkk and 4xkk decode to the two skips on an immediate, and each always completes with PC + 4 when
its comparison of the 8-bit V[x] with kk holds and PC + 2 otherwise, for every register, VF included, and
with everything else unchanged. [R104; R105] -/
def Obligations.SkipOnImmediate : Prop :=
  ∀ (x : Reg) (kk : Byte) (s : State),
    decode (wordXKK 0x3 x kk) = .ok (.seImm x kk) ∧ decode (wordXKK 0x4 x kk) = .ok (.sneImm x kk) ∧
    (∃ t, exec (.seImm x kk) s = .next t ∧
      t.pc = (if (s.getV x).toNat = kk.toNat then s.pc + 4#16 else s.pc + 2#16) ∧ Frame [] [] s t) ∧
    (∃ t, exec (.sneImm x kk) s = .next t ∧
      t.pc = (if (s.getV x).toNat = kk.toNat then s.pc + 2#16 else s.pc + 4#16) ∧ Frame [] [] s t)

/-- The words 5xy0 and 9xy0 decode to the two skips on a register and any other low nibble is illegal, and each
always completes with PC + 4 when its comparison holds and PC + 2 otherwise, so 5xx0 always and 9xx0 never
skips, with everything else unchanged. [R106; R107] -/
def Obligations.SkipOnRegister : Prop :=
  ∀ (x y : Reg) (s : State),
    decode (wordXYN 0x5 x y 0) = .ok (.seReg x y) ∧ decode (wordXYN 0x9 x y 0) = .ok (.sneReg x y) ∧
    (∀ n, 0 < n → n < 16 → decode (wordXYN 0x5 x y n) = .error (.invalidOpcode (wordXYN 0x5 x y n)) ∧
      decode (wordXYN 0x9 x y n) = .error (.invalidOpcode (wordXYN 0x9 x y n))) ∧
    (∃ t, exec (.seReg x y) s = .next t ∧
      t.pc = (if (s.getV x).toNat = (s.getV y).toNat then s.pc + 4#16 else s.pc + 2#16) ∧
      (x = y → t.pc = s.pc + 4#16) ∧ Frame [] [] s t) ∧
    (∃ t, exec (.sneReg x y) s = .next t ∧
      t.pc = (if (s.getV x).toNat = (s.getV y).toNat then s.pc + 2#16 else s.pc + 4#16) ∧
      (x = y → t.pc = s.pc + 2#16) ∧ Frame [] [] s t)

/-- The word Bnnn decodes to JP V0, which always completes with PC the plain sum of nnn and V[0], at most
0x10FE, and everything else unchanged (that the sum is not reduced is the spec's inference marked derived).
[41_control_flow.md Bnnn: JP V0, nnn] -/
def Obligations.JpV0AddsRegisterZero : Prop :=
  ∀ (nnn : Addr) (s : State), decode (wordNNN 0xB nnn) = .ok (.jpV0 nnn) ∧
    ∃ t, exec (.jpV0 nnn) s = .next t ∧ t.pc.toNat = nnn.toNat + (s.getV 0#4).toNat ∧
      t.pc.toNat ≤ 0x10FE ∧ Frame [] [] s t

/-- The word 6xkk decodes to LD Vx, kk, which always completes with V[x] = kk, PC + 2, and everything else
unchanged, VF too unless x is 15. [R120] -/
def Obligations.LdImmLoadsTheByte : Prop :=
  ∀ (x : Reg) (kk : Byte) (s : State), decode (wordXKK 0x6 x kk) = .ok (.ldImm x kk) ∧
    ∃ t, exec (.ldImm x kk) s = .next t ∧ t.getV x = kk ∧ t.pc = s.pc + 2#16 ∧ Frame [x] [] s t

/-- The word 7xkk decodes to ADD Vx, kk, which always completes with V[x] = (V[x] + kk) mod 256, PC + 2 and
everything else unchanged, VF too unless x is 15, and 6xkk then 7xkk on one register leave (kk + kk) mod
256. [R121] -/
def Obligations.AddImmAddsModulo256WithoutFlag : Prop :=
  ∀ (x : Reg) (kk : Byte) (s : State), decode (wordXKK 0x7 x kk) = .ok (.addImm x kk) ∧
    (∃ t, exec (.addImm x kk) s = .next t ∧ (t.getV x).toNat = ((s.getV x).toNat + kk.toNat) % 256 ∧
      t.pc = s.pc + 2#16 ∧ Frame [x] [] s t) ∧
    (∃ t, runAll [.ldImm x kk, .addImm x kk] s = .next t ∧ (t.getV x).toNat = (kk.toNat + kk.toNat) % 256)

/-- The word 8xy0 decodes to LD Vx, Vy, which always completes with V[x] the old V[y], PC + 2, and everything
else unchanged, so no register changes when x = y. [R122] -/
def Obligations.LdRegCopies : Prop :=
  ∀ (x y : Reg) (s : State), decode (wordXYN 0x8 x y 0x0) = .ok (.ldReg x y) ∧
    ∃ t, exec (.ldReg x y) s = .next t ∧ t.getV x = s.getV y ∧ t.pc = s.pc + 2#16 ∧ Frame [x] [] s t ∧
      (x = y → Frame [] [] s t)

/-- The words 8xy1, 8xy2 and 8xy3 decode to OR, AND and XOR, and each always completes with every bit of V[x]
the OR, AND or XOR of the old bits of V[x] and V[y], PC + 2, and everything else unchanged, VF too unless x
is 15, and XOR of a register with itself clears it. [R123; R124; R125] -/
def Obligations.BitwiseInstructionsCombineBits : Prop :=
  ∀ (x y : Reg) (s : State),
    decode (wordXYN 0x8 x y 0x1) = .ok (.orReg x y) ∧ decode (wordXYN 0x8 x y 0x2) = .ok (.andReg x y) ∧
    decode (wordXYN 0x8 x y 0x3) = .ok (.xorReg x y) ∧
    (∃ t, exec (.orReg x y) s = .next t ∧ t.pc = s.pc + 2#16 ∧ Frame [x] [] s t ∧
      ∀ k, (t.getV x).getLsbD k = ((s.getV x).getLsbD k || (s.getV y).getLsbD k)) ∧
    (∃ t, exec (.andReg x y) s = .next t ∧ t.pc = s.pc + 2#16 ∧ Frame [x] [] s t ∧
      ∀ k, (t.getV x).getLsbD k = ((s.getV x).getLsbD k && (s.getV y).getLsbD k)) ∧
    (∃ t, exec (.xorReg x y) s = .next t ∧ t.pc = s.pc + 2#16 ∧ Frame [x] [] s t ∧
      (∀ k, (t.getV x).getLsbD k = ((s.getV x).getLsbD k ^^ (s.getV y).getLsbD k)) ∧
      (x = y → t.getV x = 0#8))

/-- The word 8xy4 decodes to ADD Vx, Vy, which always completes with VF = 1 when the old V[x] + V[y] exceeds 255
and 0 otherwise, V[x] the sum modulo 256 unless x is 15, PC + 2, and everything else unchanged (that the
flag is written last is the spec's decision D10). [42_alu.md 8xy4: ADD Vx, Vy; 42_alu.md Arithmetic laws;
92_eei_decisions.md D10] -/
def Obligations.AddRegSumAndCarry : Prop :=
  ∀ (x y : Reg) (s : State), decode (wordXYN 0x8 x y 0x4) = .ok (.addReg x y) ∧
    ∃ t, exec (.addReg x y) s = .next t ∧
      (t.getV 15#4).toNat = (if 255 < (s.getV x).toNat + (s.getV y).toNat then 1 else 0) ∧
      (x ≠ 15#4 → (t.getV x).toNat = ((s.getV x).toNat + (s.getV y).toNat) % 256) ∧
      t.pc = s.pc + 2#16 ∧ Frame [x, 15#4] [] s t

/-- The words 8xy5 and 8xy7 decode to SUB and SUBN, and each always completes with VF = 1 when the minuend is at
least the subtrahend and 0 otherwise, V[x] the difference modulo 256 unless x is 15, PC + 2, and everything
else unchanged (flag last: the spec's decision D10). [42_alu.md 8xy5: SUB Vx, Vy; 42_alu.md 8xy7: SUBN Vx,
Vy; 42_alu.md Arithmetic laws; 92_eei_decisions.md D10] -/
def Obligations.SubtractionsWrapAndReportNoBorrow : Prop :=
  ∀ (x y : Reg) (s : State),
    decode (wordXYN 0x8 x y 0x5) = .ok (.sub x y) ∧ decode (wordXYN 0x8 x y 0x7) = .ok (.subn x y) ∧
    (∃ t, exec (.sub x y) s = .next t ∧
      (t.getV 15#4).toNat = (if (s.getV y).toNat ≤ (s.getV x).toNat then 1 else 0) ∧
      (x ≠ 15#4 → ((t.getV x).toNat : Int) = ((s.getV x).toNat - (s.getV y).toNat : Int) % 256) ∧
      t.pc = s.pc + 2#16 ∧ Frame [x, 15#4] [] s t) ∧
    (∃ t, exec (.subn x y) s = .next t ∧
      (t.getV 15#4).toNat = (if (s.getV x).toNat ≤ (s.getV y).toNat then 1 else 0) ∧
      (x ≠ 15#4 → ((t.getV x).toNat : Int) = ((s.getV y).toNat - (s.getV x).toNat : Int) % 256) ∧
      t.pc = s.pc + 2#16 ∧ Frame [x, 15#4] [] s t)

/-- The words 8xy6 and 8xyE, for all 16 values of y, decode to SHR and SHL, and each always completes with VF
the old bit 0, or bit 7, of V[x], V[x] half of it rounded down, or twice it modulo 256, unless x is 15, PC +
2, everything else unchanged, V[y] neither read nor written (flag last: the spec's decision D10). [42_alu.md
8xy6: SHR Vx; 42_alu.md 8xyE: SHL Vx; 42_alu.md Arithmetic laws; 92_eei_decisions.md D10] -/
def Obligations.ShiftsMoveOneBitIntoVF : Prop :=
  ∀ (x y : Reg) (s : State),
    decode (wordXYN 0x8 x y 0x6) = .ok (.shr x y) ∧ decode (wordXYN 0x8 x y 0xE) = .ok (.shl x y) ∧
    (∀ z, exec (.shr x z) s = exec (.shr x y) s ∧ exec (.shl x z) s = exec (.shl x y) s) ∧
    (∃ t, exec (.shr x y) s = .next t ∧ (t.getV 15#4).toNat = (s.getV x).toNat % 2 ∧
      (x ≠ 15#4 → (t.getV x).toNat = (s.getV x).toNat / 2) ∧ t.pc = s.pc + 2#16 ∧ Frame [x, 15#4] [] s t) ∧
    (∃ t, exec (.shl x y) s = .next t ∧ (t.getV 15#4).toNat = (s.getV x).toNat / 128 ∧
      (x ≠ 15#4 → (t.getV x).toNat = ((s.getV x).toNat * 2) % 256) ∧ t.pc = s.pc + 2#16 ∧
      Frame [x, 15#4] [] s t)

/-- The word Cxkk decodes to RND Vx, kk, which always completes with V[x] the AND of kk with the free byte of
this draw (log 1: an opaque value, of which nothing is claimed), one draw taken, PC + 2 and everything else
unchanged, and the same effect holds with any byte r in the place of the draw. [42_alu.md Cxkk: RND Vx, kk;
60_exceptions.md section 6 (random source); 92_eei_decisions.md D21] -/
def Obligations.RndMasksAFreeByte : Prop :=
  ∀ (x : Reg) (kk : Byte) (s : State), decode (wordXKK 0xC x kk) = .ok (.rnd x kk) ∧
    exec (.rnd x kk) s = .next (rndWith (Config.randomByte s.draws) x kk s) ∧
    ∀ r : Byte, ∃ t, rndWith r x kk s = t ∧ (∀ k, (t.getV x).getLsbD k = (r.getLsbD k && kk.getLsbD k)) ∧
      t.draws = s.draws + 1 ∧ t.pc = s.pc + 2#16 ∧ Frame [x] [.draws] s t

/-- The word Annn decodes to LD I, nnn, which always completes with I = nnn, zero-extended, PC + 2 and
everything else unchanged. [R140] -/
def Obligations.LdISetsTheIndex : Prop :=
  ∀ (nnn : Addr) (s : State), decode (wordNNN 0xA nnn) = .ok (.ldI nnn) ∧
    ∃ t, exec (.ldI nnn) s = .next t ∧ t.i.toNat = nnn.toNat ∧ t.pc = s.pc + 2#16 ∧ Frame [] [.index] s t

/-- The words Fx1E and Fx29 decode to ADD I, Vx and LD F, Vx, and each always completes with I = (I + V[x]) mod
65536, or I = 5 * V[x] with the whole of V[x], PC + 2 and everything else unchanged, VF with it (the spec's
decisions D7, D8 and D20). [43_index_memory.md Fx1E: ADD I, Vx; 43_index_memory.md Fx29: LD F, Vx;
92_eei_decisions.md D7, D8 and D20] -/
def Obligations.IndexArithmetic : Prop :=
  ∀ (x : Reg) (s : State),
    decode (wordX 0xF x 0x1E) = .ok (.addI x) ∧ decode (wordX 0xF x 0x29) = .ok (.ldF x) ∧
    (∃ t, exec (.addI x) s = .next t ∧ t.i.toNat = (s.i.toNat + (s.getV x).toNat) % 65536 ∧
      t.pc = s.pc + 2#16 ∧ Frame [] [.index] s t) ∧
    (∃ t, exec (.ldF x) s = .next t ∧ t.i.toNat = 5 * (s.getV x).toNat ∧
      t.pc = s.pc + 2#16 ∧ Frame [] [.index] s t)

/-- The word Fx33 decodes to LD B, Vx, which completes when I + 2 is at most 4095, in every state whose memory
is canonical: the byte at I is V[x] div 100, at I + 1 (V[x] div 10) mod 10, at I + 2 V[x] mod 10, every
other byte, every register, I and all else unchanged, PC + 2. [43_index_memory.md Fx33: LD B, Vx;
20_memory.md section 2; 92_eei_decisions.md D5] -/
def Obligations.LdBStoresDecimalDigits : Prop :=
  ∀ (x : Reg) (s : State), decode (wordX 0xF x 0x33) = .ok (.ldB x) ∧
    (Memory.wf s.mem = true → s.i.toNat + 2 ≤ 4095 → ∃ t, exec (.ldB x) s = .next t ∧
      (t.readByte s.base).toNat = (s.getV x).toNat / 100 ∧
      (t.readByte (s.base + 1)).toNat = ((s.getV x).toNat / 10) % 10 ∧
      (t.readByte (s.base + 2)).toNat = (s.getV x).toNat % 10 ∧
      SameOutside s.base 3 s t ∧ t.pc = s.pc + 2#16 ∧ Frame [] [.memory] s t)

/-- The word Fx55 decodes to LD [I], Vx, which completes when I + x is at most 4095, in every state whose memory
is canonical: the byte at I + r is V[r] for each r up to x, every other byte, every register, I and all else
unchanged, PC + 2. [43_index_memory.md Fx55: LD [I], Vx; 20_memory.md section 2; 92_eei_decisions.md D5] -/
def Obligations.StRegsStoresRegistersUpToX : Prop :=
  ∀ (x : Reg) (s : State), decode (wordX 0xF x 0x55) = .ok (.stRegs x) ∧
    (Memory.wf s.mem = true → s.i.toNat + x.toNat ≤ 4095 → ∃ t, exec (.stRegs x) s = .next t ∧
      (∀ r : Reg, r.toNat ≤ x.toNat → t.readByte (s.base + r.toNat) = s.getV r) ∧
      SameOutside s.base (x.toNat + 1) s t ∧ t.pc = s.pc + 2#16 ∧ Frame [] [.memory] s t)

/-- The word Fx65 decodes to LD Vx, [I], which completes when I + x is at most 4095: V[r] is the byte at I + r
for each r up to x, the registers above x, I, memory and all else unchanged, PC + 2. [43_index_memory.md
Fx65: LD Vx, [I]; 20_memory.md section 2; 92_eei_decisions.md D5] -/
def Obligations.LdRegsLoadsRegistersUpToX : Prop :=
  ∀ (x : Reg) (s : State), decode (wordX 0xF x 0x65) = .ok (.ldRegs x) ∧
    (s.i.toNat + x.toNat ≤ 4095 → ∃ t, exec (.ldRegs x) s = .next t ∧
      (∀ r : Reg, r.toNat ≤ x.toNat → t.getV r = s.readByte (s.base + r.toNat)) ∧
      (∀ r : Reg, x.toNat < r.toNat → t.getV r = s.getV r) ∧
      t.pc = s.pc + 2#16 ∧ ∀ part, SamePart part s t)

/-- When the highest address it would touch is above 4095 each of the four memory instructions answers
OutOfBounds(max(I, 4096)), and a step that does so leaves the whole state as it was (the spec's decisions D5
and D6). [20_memory.md section 2; 60_exceptions.md section 1 (OutOfBounds at a data access);
92_eei_decisions.md D5 and D6] -/
def Obligations.DataAccessPastMemoryRaisesOutOfBounds : Prop :=
  (∀ (x : Reg) (s : State), 4095 < s.i.toNat + 2 →
    exec (.ldB x) s = .fault (.outOfBounds (max s.i.toNat 4096))) ∧
  (∀ (x : Reg) (s : State), 4095 < s.i.toNat + x.toNat →
    exec (.stRegs x) s = .fault (.outOfBounds (max s.i.toNat 4096)) ∧
    exec (.ldRegs x) s = .fault (.outOfBounds (max s.i.toNat 4096))) ∧
  (∀ (x y : Reg) (n : Nibble) (s : State), 0 < n.toNat → 4095 < s.i.toNat + (n.toNat - 1) →
    exec (.drw x y n) s = .fault (.outOfBounds (max s.i.toNat 4096))) ∧
  (∀ (p : Params) (i : Instr) (a : Nat) (s : State), AboutToRun i s → exec i s = .fault (.outOfBounds a) →
    transact p .step s = (s, .error (.outOfBounds a)))

/-- After Fx55, whatever the registers have become meanwhile, Fx65 with the same x completes and gives every
register up to x the value it had before the store. [43_index_memory.md Family notes] -/
def Obligations.StoreThenLoadRestoresRegisters : Prop :=
  ∀ (x : Reg) (s : State) (v : Vector Byte 16), Memory.wf s.mem = true → s.i.toNat + x.toNat ≤ 4095 →
    ∃ t u, exec (.stRegs x) s = .next t ∧ exec (.ldRegs x) (t.setVAll v) = .next u ∧
      ∀ r : Reg, r.toNat ≤ x.toNat → u.getV r = s.getV r

/-- When I is the address of the next instruction and x is at least 1, the fetch after Fx55 gives the word whose
high byte is V[0] and whose low byte is V[1]. [20_memory.md section 8; 70_reset_and_hazards.md section 3] -/
def Obligations.StoredBytesAreFetchedNext : Prop :=
  ∀ (x : Reg) (s : State), Memory.wf s.mem = true → 1 ≤ x.toNat → s.i.toNat = s.pc.toNat + 2 →
    s.i.toNat + x.toNat ≤ 4095 → ∃ t w, exec (.stRegs x) s = .next t ∧ t.fetch = .ok w ∧
      w.toNat = 256 * (s.getV 0#4).toNat + (s.getV 1#4).toNat

/-- The word 00E0 decodes to CLS, which always completes with every framebuffer cell 0, PC + 2, and everything
else unchanged, should_draw and VF with it (the spec's decision D12). [44_display.md 00E0: CLS;
90_conflicts.md C6; 92_eei_decisions.md D12] -/
def Obligations.ClsClearsTheFramebufferOnly : Prop :=
  decode 0x00E0#16 = .ok .cls ∧
  ∀ s : State, ∃ t, exec .cls s = .next t ∧ (∀ idx, t.cell idx = false) ∧ t.pc = s.pc + 2#16 ∧
    Frame [] [.framebuffer] s t

/-- The word Dxyn decodes to DRW, which completes when n = 0 or I + n - 1 is at most 4095: every cell is its old
value XOR the sprite bit that falls on it from (V[x], V[y]) with each pixel wrapped modulo 64 and 32, VF is
1 when some cell that was 1 has a 1 bit on it and 0 otherwise (decision D11), should_draw is true, PC + 2,
and everything else is unchanged. [44_display.md Dxyn: DRW Vx, Vy, n; 44_display.md Coordinate law;
90_conflicts.md C5; 92_eei_decisions.md D5 and D11] -/
def Obligations.DrwXorsTheSpriteAndReportsCollision : Prop :=
  ∀ (x y : Reg) (n : Nibble) (s : State), decode (wordXYN 0xD x y n.toNat) = .ok (.drw x y n) ∧
    (n = 0#4 ∨ s.i.toNat + (n.toNat - 1) ≤ 4095 → ∃ t, exec (.drw x y n) s = .next t ∧
      (∀ px py, px < 64 → py < 32 → t.cell (py * 64 + px) =
        (s.cell (py * 64 + px) ^^ spriteBit s s.base n.toNat (s.getV x).toNat (s.getV y).toNat px py)) ∧
      (Collides s s.base n.toNat (s.getV x).toNat (s.getV y).toNat → t.getV 15#4 = 1#8) ∧
      (¬ Collides s s.base n.toNat (s.getV x).toNat (s.getV y).toNat → t.getV 15#4 = 0#8) ∧
      t.shouldDraw = true ∧ t.pc = s.pc + 2#16 ∧ Frame [15#4] [.framebuffer, .drawFlag] s t)

/-- When neither coordinate is VF and the sprite lies in memory, two draws in a row complete and leave every
cell as it was, and the second reports VF = 1 exactly when some 1 bit of the sprite fell on a cell that was
0 before the first. [44_display.md Dxyn: DRW Vx, Vy, n (double XOR); 90_conflicts.md C5; 92_eei_decisions.md
D11] -/
def Obligations.DrawingTwiceRestoresTheFramebuffer : Prop :=
  ∀ (x y : Reg) (n : Nibble) (s : State), x ≠ 15#4 → y ≠ 15#4 →
    (n = 0#4 ∨ s.i.toNat + (n.toNat - 1) ≤ 4095) →
    ∃ t, runAll [.drw x y n, .drw x y n] s = .next t ∧ (∀ idx, t.cell idx = s.cell idx) ∧
      (t.getV 15#4 = 1#8 ↔ ∃ px py, px < 64 ∧ py < 32 ∧ s.cell (py * 64 + px) = false ∧
        spriteBit s s.base n.toNat (s.getV x).toNat (s.getV y).toNat px py = true)

/-- For every column and row, however large, the cell the sprite engine uses is row * 64 + column with the
column reduced modulo 64 and the row modulo 32, hence in 0 to 2047, and a draw whose sprite lies in memory
raises no error. [R152] -/
def Obligations.PixelsNeverLeaveTheFramebuffer : Prop :=
  (∀ px py, ∃ col row, col < 64 ∧ row < 32 ∧ col = px % 64 ∧ row = py % 32 ∧
    cellIndex px py = row * 64 + col ∧ cellIndex px py < 2048) ∧
  (∀ (x y : Reg) (n : Nibble) (s : State), n = 0#4 ∨ s.i.toNat + (n.toNat - 1) ≤ 4095 →
    ∀ f, exec (.drw x y n) s ≠ .fault f)

/-- The words Ex9E and ExA1 decode to SKP and SKNP, and each always completes with PC + 4 when its condition on
key[V[x] mod 16] holds and PC + 2 otherwise, everything else unchanged (the low nibble is the spec's
decision D9). [45_keypad_timers.md Ex9E: SKP Vx; 45_keypad_timers.md ExA1: SKNP Vx; 92_eei_decisions.md D9] -/
def Obligations.KeySkipsReadTheLowNibbleKey : Prop :=
  ∀ (x : Reg) (k : Nibble) (s : State), k.toNat = (s.getV x).toNat % 16 →
    decode (wordX 0xE x 0x9E) = .ok (.skp x) ∧ decode (wordX 0xE x 0xA1) = .ok (.sknp x) ∧
    (∃ t, exec (.skp x) s = .next t ∧ t.pc = (if s.keyAt k = true then s.pc + 4#16 else s.pc + 2#16) ∧
      Frame [] [] s t) ∧
    (∃ t, exec (.sknp x) s = .next t ∧ t.pc = (if s.keyAt k = true then s.pc + 2#16 else s.pc + 4#16) ∧
      Frame [] [] s t)

/-- The word Fx07 decodes to LD Vx, DT, which always completes with V[x] = DT, PC + 2 and everything else
unchanged, and the step that runs it leaves in V[x] the DT from before its tick, for either setting of the
parameter. [R162] -/
def Obligations.LdVxDtReadsTheDelayTimerBeforeTheTick : Prop :=
  ∀ (x : Reg) (s : State), decode (wordX 0xF x 0x07) = .ok (.ldVxDt x) ∧
    (∃ t, exec (.ldVxDt x) s = .next t ∧ t.getV x = s.dt ∧ t.pc = s.pc + 2#16 ∧ Frame [x] [] s t) ∧
    (AboutToRun (.ldVxDt x) s → ∀ p, ∃ u, cycle p s = .next u ∧ u.getV x = s.dt)

/-- The word Fx15 decodes to LD DT, Vx, which always completes with DT = V[x], PC + 2 and everything else
unchanged, and the step that runs it ends with DT one less than a nonzero V[x] when TIMER_TICK_IN_STEP is
true and with DT = V[x] when it is false. [R164] -/
def Obligations.LdDtVxLoadsTheDelayTimer : Prop :=
  ∀ (x : Reg) (s : State), decode (wordX 0xF x 0x15) = .ok (.ldDtVx x) ∧
    (∃ t, exec (.ldDtVx x) s = .next t ∧ t.dt = s.getV x ∧ t.pc = s.pc + 2#16 ∧ Frame [] [.delay] s t) ∧
    (AboutToRun (.ldDtVx x) s → ∀ p, ∃ u, cycle p s = .next u ∧
      u.dt.toNat = (if p.tickInStep then (s.getV x).toNat - 1 else (s.getV x).toNat))

/-- The word Fx18 decodes to LD ST, Vx, which always completes with ST = V[x], PC + 2 and everything else
unchanged, after which the sound-active signal is V[x] > 0, and the step that runs it ends with ST one less
than a nonzero V[x] when TIMER_TICK_IN_STEP is true and with ST = V[x] when it is false. [R165] -/
def Obligations.LdStVxLoadsTheSoundTimer : Prop :=
  ∀ (x : Reg) (s : State), decode (wordX 0xF x 0x18) = .ok (.ldStVx x) ∧
    (∃ t, exec (.ldStVx x) s = .next t ∧ t.st = s.getV x ∧ t.pc = s.pc + 2#16 ∧ Frame [] [.sound] s t ∧
      ∀ p, (transact p .isSoundActive t).2 = .flag (decide (0 < (s.getV x).toNat))) ∧
    (AboutToRun (.ldStVx x) s → ∀ p, ∃ u, cycle p s = .next u ∧
      u.st.toNat = (if p.tickInStep then (s.getV x).toNat - 1 else (s.getV x).toNat))

/-- The word Fx0A decodes to LD Vx, K, which always completes with mode AwaitingKey, wait_x = x, PC still at
this instruction and everything else unchanged, V[x] with it (wait_x is the spec's decision D15).
[45_keypad_timers.md Fx0A: LD Vx, K; 10_state.md section 11; 92_eei_decisions.md D15] -/
def Obligations.LdVxKEntersTheWait : Prop :=
  ∀ (x : Reg) (s : State), decode (wordX 0xF x 0x0A) = .ok (.ldVxK x) ∧
    ∃ t, exec (.ldVxK x) s = .next t ∧ t.mode = .awaitingKey ∧ t.waitX = x ∧ t.pc = s.pc ∧
      Frame [] [.waiting] s t

/-- set_key(k, pressed) always makes key[k] = pressed and no other key changes; a press during a wait, whatever
key[k] was, also gives V[wait_x] = k, PC + 2 and mode Running; a release, and anything in Running mode,
changes nothing but the key. Of the eight transactions a press and reset leave the wait, and each of the
others, a step among them, leaves the mode AwaitingKey (the spec's decisions D14 and D16, log 6).
[60_exceptions.md section 6 (set_key); 45_keypad_timers.md Fx0A: LD Vx, K; 40_cycle.md section 7;
92_eei_decisions.md D14 and D16] -/
def Obligations.OnlyAKeyPressOrResetEndsTheWait : Prop :=
  (∀ (p : Params) (k : Nibble) (pressed : Bool) (s : State),
    ∃ t, transact p (.setKey k pressed) s = (t, .done) ∧ t.keyAt k = pressed ∧
      (∀ j, j ≠ k → t.keyAt j = s.keyAt j) ∧
      (s.mode = .awaitingKey → pressed = true →
        (t.getV s.waitX).toNat = k.toNat ∧ t.pc = s.pc + 2#16 ∧ t.mode = .running ∧
        Frame [s.waitX] [.keypad, .waiting] s t) ∧
      (s.mode = .running ∨ pressed = false → t.pc = s.pc ∧ Frame [] [.keypad] s t)) ∧
  (∀ (p : Params) (a : Transaction) (s : State), s.mode = .awaitingKey →
    ((transact p a s).1.mode = .running ↔ a = .reset ∨ ∃ k, a = .setKey k true))

/-- From any state and for any FONT, reset leaves all registers, I, SP, the stack, both timers, the framebuffer,
the keypad, should_draw and wait_x at zero or false, PC at 0x200, mode Running, the 80 font bytes at 0x000
to 0x04F and 0 in every other byte; with the default font it is State.reset but for the model's count of
draws, which goes on (log 1). The values the source omits are the spec's decision D18. [10_state.md sections
14 and 15; 70_reset_and_hazards.md section 1; 92_eei_decisions.md D18, D19 and D22] -/
def Obligations.ResetRebuildsEveryPieceOfState : Prop :=
  (∀ (p : Params) (s : State), ∃ t, transact p .reset s = (t, .done) ∧
    (∀ r, t.getV r = 0#8) ∧ t.i = 0#16 ∧ t.pc = 0x200#16 ∧ t.sp.val = 0 ∧
    (∀ (k : Nat) (hk : k < 16), t.stack[k] = 0#16) ∧ t.dt = 0#8 ∧ t.st = 0#8 ∧
    (∀ (d c : Nat) (hd : d < 16) (hc : c < 5), t.readByte (5 * d + c) = p.font[d][c]) ∧
    (∀ a, 0x050 ≤ a → t.readByte a = 0#8) ∧ (∀ idx, t.cell idx = false) ∧ (∀ k, t.keyAt k = false) ∧
    t.shouldDraw = false ∧ t.mode = .running ∧ t.waitX = 0#4) ∧
  (∀ s : State, (transact Params.default .reset s).1 = { State.reset with draws := s.draws })

/-- A sequence of at most 3584 bytes is accepted: byte k lies at 0x200 + k, every other byte of memory, PC, the
registers and all other state are unchanged (in every state whose memory is canonical), and an empty
sequence changes nothing. [60_exceptions.md section 6 (load_program); 20_memory.md section 10;
92_eei_decisions.md D23] -/
def Obligations.LoadProgramCopiesFromProgramBase : Prop :=
  ∀ (p : Params) (bytes : List Byte) (s : State), Memory.wf s.mem = true → bytes.length ≤ 3584 →
    ∃ t, transact p (.loadProgram bytes) s = (t, .done) ∧
      (∀ (k : Nat) (hk : k < bytes.length), t.readByte (0x200 + k) = bytes[k]) ∧
      SameOutside 0x200 bytes.length s t ∧ t.pc = s.pc ∧ Frame [] [.memory] s t ∧ (bytes = [] → t = s)

/-- A sequence longer than 3584 bytes answers RomTooLarge and leaves the state as it was, one of at most 3584 is
accepted, one of exactly 3584 fills 0x200 to 0xFFF, and no step answers RomTooLarge. [R176] -/
def Obligations.RomTooLargeIsRaisedByLoadProgramAlone : Prop :=
  (∀ (p : Params) (bytes : List Byte) (s : State),
    (3584 < bytes.length → transact p (.loadProgram bytes) s = (s, .error .romTooLarge)) ∧
    (bytes.length ≤ 3584 → (transact p (.loadProgram bytes) s).2 = .done) ∧
    (bytes.length = 3584 → Memory.wf s.mem = true → ∀ a, 0x200 ≤ a → a ≤ 0xFFF →
      (transact p (.loadProgram bytes) s).1.readByte a = bytes.getD (a - 0x200) 0#8)) ∧
  (∀ (p : Params) (s : State), (transact p .step s).2 ≠ .error .romTooLarge)

/-- The framebuffer read answers the 2048 cells, cell i being column i mod 64 of row i div 64, and leaves the
state; take_draw_flag answers should_draw and leaves it false with nothing else changed; and no step makes a
true should_draw false. [R188] -/
def Obligations.FrameReadAndDrawFlag : Prop :=
  (∀ (p : Params) (s : State), ∃ cells, transact p .readFramebuffer s = (s, .frame cells) ∧
    ∀ (i : Nat) (h : i < 2048), s.cell i = (cells[i / 64]'(Nat.div_lt_of_lt_mul h)).getLsbD (i % 64)) ∧
  (∀ (p : Params) (s : State), ∃ t, transact p .takeDrawFlag s = (t, .flag s.shouldDraw) ∧
    t.shouldDraw = false ∧ t.pc = s.pc ∧ Frame [] [.drawFlag] s t) ∧
  (∀ (p : Params) (s : State), s.shouldDraw = true → (transact p .step s).1.shouldDraw = true)

/-- is_sound_active answers whether ST is above 0 and changes nothing, so states with one ST answer alike, and
the sound_active of every step outcome is what is_sound_active answers in the state the step leaves. [R189] -/
def Obligations.SoundActiveIsSoundTimerAboveZero : Prop :=
  (∀ (p : Params) (s : State), transact p .isSoundActive s = (s, .flag (decide (0 < s.st.toNat)))) ∧
  (∀ (p : Params) (s t : State) (d a : Bool), transact p .step s = (t, .outcome d a) →
    transact p .isSoundActive t = (t, .flag a))

/-- State.reset, and the state the reset transaction leaves from any state and for any font, has canonical
memory, PC at most 0x10FE, return addresses in use at most 4096, and no wait at an address that cannot be
fetched. [10_state.md sections 4, 5, 13 and 14] -/
def Obligations.InvariantHoldsAtReset : Prop :=
  Inv State.reset ∧ ∀ (p : Params) (s : State), Inv (transact p .reset s).1

/-- From every state that satisfies the invariant, reachable or not, a step that answers a next state, at the
default parameters or any others, gives a state that satisfies it: canonical memory, PC at most 0x10FE (so
the 16-bit PC never overflows), every return address in use at most 4096, and PC at most 4094 during a wait.
[10_state.md sections 4, 5 and 13; 20_memory.md section 2; 41_control_flow.md 2nnn: CALL nnn] -/
def Obligations.InvariantKeptByEveryStep : Prop :=
  (∀ s t : State, Inv s → step s = .next t → Inv t) ∧
  (∀ (p : Params) (s t : State), Inv s → cycle p s = .next t → Inv t)

/-- From every state that satisfies the invariant each of the eight transactions, whatever its input and its
answer, leaves a state that satisfies it, and so does any finite sequence of them in any order.
[60_exceptions.md section 6; 10_state.md sections 4, 5 and 13; 92_eei_decisions.md D33] -/
def Obligations.InvariantKeptByEveryTransaction : Prop :=
  (∀ (p : Params) (t : Transaction) (s : State), Inv s → Inv (transact p t s).1) ∧
  (∀ (p : Params) (ts : List Transaction) (s : State), Inv s → Inv (runTransactions p ts s).1)

/-- Whenever an instruction completes, every register it may not write by its rule is unchanged (VF is written
only by the six flag instructions or as a destination), and so is every other piece of state whose writers
do not include it: I by Annn, Fx1E, Fx29, the stack by 2nnn, 00EE, memory by Fx33, Fx55, the framebuffer by
00E0, Dxyn, should_draw by Dxyn, DT by Fx15, ST by Fx18, the mode by Fx0A, the keypad by none. [10_state.md
section 1 (written by); 10_state.md section 2 (what writes VF); 45_keypad_timers.md Family notes] -/
def Obligations.OnlyTheListedInstructionsWriteEachPiece : Prop :=
  ∀ (i : Instr) (s t : State), exec i s = .next t →
    (∀ r, mayWriteReg i r = false → t.getV r = s.getV r) ∧ (∀ part, part ∉ mayWritePart i → SamePart part s t)

/-- Every instruction but Fx18 that completes leaves ST as it was and, if ST is replaced by any value b, answers
the same next state with ST = b; Fx18 then answers the very same next state, and whatever faults answers the
same fault. For Cxkk the two executions compared take the same byte, because the model's count of draws is
the same in both: the model's choice of log 1, for one source answering one execution (the spec's D21 gives
each execution a free byte). [10_state.md section 6 (no instruction reads ST); 45_keypad_timers.md Family
notes; 92_eei_decisions.md D21] -/
def Obligations.NoInstructionReadsTheSoundTimer : Prop :=
  ∀ (i : Instr) (s : State) (b : Byte),
    (∀ t, exec i s = .next t →
      ((∀ x, i ≠ .ldStVx x) → t.st = s.st ∧ exec i (s.setSt b) = .next (t.setSt b)) ∧
      ((∃ x, i = .ldStVx x) → exec i (s.setSt b) = .next t)) ∧
    (∀ f, exec i s = .fault f → exec i (s.setSt b) = .fault f)

/-- Two states that differ at most in the stack entries at and above SP give the same answer to every
transaction, steps included, and again differ at most so, and hence give the same answers to every finite
sequence of transactions (that a popped entry is kept is the spec's decision D31). For Cxkk the two runs
compared take the same byte, because the model's count of draws is the same in both: the model's choice of
log 1, for one source answering one execution (the spec's D21 gives each execution a free byte).
[10_state.md section 5; 92_eei_decisions.md D21 and D31] -/
def Obligations.StaleStackEntriesAreNeverSeen : Prop :=
  (∀ (p : Params) (a : Transaction) (s t : State), SameLiveStack s t →
    (transact p a t).2 = (transact p a s).2 ∧ SameLiveStack (transact p a s).1 (transact p a t).1) ∧
  (∀ (p : Params) (as : List Transaction) (s t : State), SameLiveStack s t →
    (runTransactions p as t).2 = (runTransactions p as s).2)
end

