-- ==== Sys2Proof/Laws/Decode.lean ====
section
/-! SUPPORT. The fields of a word written as nibbles: what the decoder reads back from each layout of
30_encoding.md R62, and a word put together again from its fields. -/

namespace Sys2Proof

/-! ### Four nibbles (formats XY, XYN, X) -/

section
variable (a b c d : Nibble)

@[simp] theorem nibble0_wordOfNibbles : nibble0 (wordOfNibbles a b c d) = a := by
  ext k hk
  simp only [nibble0, wordOfNibbles, BitVec.getElem_extractLsb', BitVec.getLsbD_append]
  grind

@[simp] theorem nibble1_wordOfNibbles : nibble1 (wordOfNibbles a b c d) = b := by
  ext k hk
  simp only [nibble1, wordOfNibbles, BitVec.getElem_extractLsb', BitVec.getLsbD_append]
  grind

@[simp] theorem nibble2_wordOfNibbles : nibble2 (wordOfNibbles a b c d) = c := by
  ext k hk
  simp only [nibble2, wordOfNibbles, BitVec.getElem_extractLsb', BitVec.getLsbD_append]
  grind

@[simp] theorem nibble3_wordOfNibbles : nibble3 (wordOfNibbles a b c d) = d := by
  ext k hk
  simp only [nibble3, wordOfNibbles, BitVec.getElem_extractLsb', BitVec.getLsbD_append]
  grind

end

/-! ### Format NNN -/

section
variable (m : Nibble) (nnn : Addr)

@[simp] theorem nibble0_encodeNNN : nibble0 (encodeNNN m nnn) = m := by
  ext k hk
  simp only [nibble0, encodeNNN, BitVec.getElem_extractLsb', BitVec.getLsbD_append]
  grind

@[simp] theorem nibble1_encodeNNN : nibble1 (encodeNNN m nnn) = nnn.extractLsb' 8 4 := by
  ext k hk
  simp only [nibble1, encodeNNN, BitVec.getElem_extractLsb', BitVec.getLsbD_append]
  grind

@[simp] theorem nibble2_encodeNNN : nibble2 (encodeNNN m nnn) = nnn.extractLsb' 4 4 := by
  ext k hk
  simp only [nibble2, encodeNNN, BitVec.getElem_extractLsb', BitVec.getLsbD_append]
  grind

@[simp] theorem nibble3_encodeNNN : nibble3 (encodeNNN m nnn) = nnn.extractLsb' 0 4 := by
  ext k hk
  simp only [nibble3, encodeNNN, BitVec.getElem_extractLsb', BitVec.getLsbD_append]
  grind

@[simp] theorem nnn_encodeNNN : (fieldsOf (encodeNNN m nnn)).nnn = nnn := by
  ext k hk
  simp only [fieldsOf, encodeNNN, BitVec.getElem_extractLsb', BitVec.getLsbD_append]
  grind

end

/-! ### Format XKK -/

section
variable (m : Nibble) (x : Reg) (kk : Byte)

@[simp] theorem nibble0_encodeXKK : nibble0 (encodeXKK m x kk) = m := by
  ext k hk
  simp only [nibble0, encodeXKK, BitVec.getElem_extractLsb', BitVec.getLsbD_append]
  grind

@[simp] theorem nibble1_encodeXKK : nibble1 (encodeXKK m x kk) = x := by
  ext k hk
  simp only [nibble1, encodeXKK, BitVec.getElem_extractLsb', BitVec.getLsbD_append]
  grind

@[simp] theorem kk_encodeXKK : (fieldsOf (encodeXKK m x kk)).kk = kk := by
  ext k hk
  simp only [fieldsOf, encodeXKK, BitVec.getElem_extractLsb', BitVec.getLsbD_append]
  grind

end

/-! ### A word from its fields -/

section
variable (w : Word)

theorem wordOfNibbles_nibbles : wordOfNibbles (nibble0 w) (nibble1 w) (nibble2 w) (nibble3 w) = w := by
  ext k hk
  simp only [wordOfNibbles, nibble0, nibble1, nibble2, nibble3]
  grind

theorem encodeNNN_fields : encodeNNN (nibble0 w) (fieldsOf w).nnn = w := by
  ext k hk
  simp only [encodeNNN, nibble0, fieldsOf]
  grind

theorem encodeXKK_fields : encodeXKK (nibble0 w) (nibble1 w) (fieldsOf w).kk = w := by
  ext k hk
  simp only [encodeXKK, nibble0, nibble1, fieldsOf]
  grind

@[simp] theorem fieldsOf_x : (fieldsOf w).x = nibble1 w := rfl
@[simp] theorem fieldsOf_y : (fieldsOf w).y = nibble2 w := rfl
@[simp] theorem fieldsOf_n : (fieldsOf w).n = nibble3 w := rfl

/-- A word and the two bytes memory holds it as (R44). -/
theorem wordOfBytes_bytesOfWord : wordOfBytes (w.extractLsb' 8 8) (w.extractLsb' 0 8) = w := by
  ext k hk
  simp only [wordOfBytes]
  grind

end

/-! ### Rows -/

section
variable (m a b : Nibble) (f : Fields → Instr) (w : Word)

@[simp] theorem rowMatches_rowMajor : rowMatches (rowMajor m f) w = (m == nibble0 w) := by
  simp [rowMatches, rowMajor, literalMatches]

@[simp] theorem rowMatches_rowXY : rowMatches (rowXY m a f) w = (m == nibble0 w && a == nibble3 w) := by
  simp [rowMatches, rowXY, literalMatches]

@[simp] theorem rowMatches_rowX :
    rowMatches (rowX m a b f) w = (m == nibble0 w && a == nibble2 w && b == nibble3 w) := by
  simp [rowMatches, rowX, literalMatches]

@[simp] theorem rowMatches_fixed (c : Nibble) :
    rowMatches ⟨some m, some a, some b, some c, f⟩ w =
      (m == nibble0 w && a == nibble1 w && b == nibble2 w && c == nibble3 w) := rfl

@[simp] theorem build_rowMajor (q : Fields) : (rowMajor m f).build q = f q := rfl
@[simp] theorem build_rowXY (q : Fields) : (rowXY m a f).build q = f q := rfl
@[simp] theorem build_rowX (q : Fields) : (rowX m a b f).build q = f q := rfl

end

/-- The word two bytes make, as a number: the first byte is the high one (R44). -/
theorem toNat_wordOfBytes (hi lo : Byte) : (wordOfBytes hi lo).toNat = 256 * hi.toNat + lo.toNat := by
  rw [wordOfBytes, BitVec.toNat_append, Nat.shiftLeft_eq, ← Nat.shiftLeft_eq, ← Nat.shiftLeft_add_eq_or_of_lt lo.isLt,
    Nat.shiftLeft_eq]
  omega

end Sys2Proof
end

