-- ==== Sys2Proof/Laws/Memory.lean ====
section
/-! SUPPORT. Memory (20_memory.md): read after write, what a block store and a block load do, the canonical
form and that every operation keeps it, and that equal contents are equal data. -/

namespace Sys2Proof.Machine

@[simp] theorem Memory.read_nil (a : Nat) : Memory.read [] a = resetByte a := rfl

@[simp] theorem Memory.read_cons (a a' : Nat) (b : Byte) (m : Memory) :
    Memory.read ((a', b) :: m) a = if a = a' then b else Memory.read m a := rfl

/-- A memory whose cells all lie at `low` or above reads as the reset image below `low`. -/
theorem Memory.read_below (m : Memory) (low : Nat) (h : Memory.wfFrom low m = true) (a : Nat) (ha : a < low) :
    Memory.read m a = resetByte a := by
  induction m generalizing low with
  | nil => rfl
  | cons c m ih =>
    obtain ⟨a', b⟩ := c
    simp only [Memory.wfFrom, Bool.and_eq_true, decide_eq_true_eq] at h
    have hne : a ≠ a' := by omega
    rw [Memory.read_cons, if_neg hne]
    exact ih (a' + 1) h.2 (by omega)

/-- The lower bound of a canonical memory may be lowered. -/
theorem Memory.wfFrom_mono {m : Memory} {low low' : Nat} (h : Memory.wfFrom low m = true) (hl : low' ≤ low) :
    Memory.wfFrom low' m = true := by
  cases m with
  | nil => rfl
  | cons c m =>
    obtain ⟨a, b⟩ := c
    simp only [Memory.wfFrom, Bool.and_eq_true, decide_eq_true_eq] at h ⊢
    exact ⟨⟨⟨by omega, h.1.1.2⟩, h.1.2⟩, h.2⟩

theorem Memory.wfFrom_consCell {m : Memory} {a low : Nat} (b : Byte) (h : Memory.wfFrom (a + 1) m = true)
    (hl : low ≤ a) (ha : a < Config.memSize) : Memory.wfFrom low (Memory.consCell a b m) = true := by
  unfold Memory.consCell
  split
  · exact Memory.wfFrom_mono h (by omega)
  · rename_i hb
    simp only [Memory.wfFrom, Bool.and_eq_true, decide_eq_true_eq, bne_iff_ne]
    exact ⟨⟨⟨hl, ha⟩, hb⟩, h⟩

/-- A write to an address that exists keeps the canonical form. -/
theorem Memory.wfFrom_write (m : Memory) (low a : Nat) (b : Byte) (h : Memory.wfFrom low m = true) (hl : low ≤ a)
    (ha : a < Config.memSize) : Memory.wfFrom low (Memory.write m a b) = true := by
  induction m generalizing low with
  | nil => exact Memory.wfFrom_consCell b rfl hl ha
  | cons c m ih =>
    obtain ⟨a', b'⟩ := c
    have h0 := h
    simp only [Memory.wfFrom, Bool.and_eq_true, decide_eq_true_eq, bne_iff_ne] at h
    obtain ⟨⟨⟨h1, h2⟩, h3⟩, h4⟩ := h
    unfold Memory.write
    split
    · refine Memory.wfFrom_consCell b ?_ hl ha
      simp only [Memory.wfFrom, Bool.and_eq_true, decide_eq_true_eq, bne_iff_ne]
      exact ⟨⟨⟨by omega, h2⟩, h3⟩, h4⟩
    · split
      · rename_i _ he
        subst he
        exact Memory.wfFrom_consCell b h4 hl ha
      · simp only [Memory.wfFrom, Bool.and_eq_true, decide_eq_true_eq, bne_iff_ne]
        exact ⟨⟨⟨h1, h2⟩, h3⟩, ih (a' + 1) h4 (by omega)⟩

theorem Memory.wf_write {m : Memory} {a : Nat} (b : Byte) (h : Memory.wf m = true) (ha : a < Config.memSize) :
    Memory.wf (Memory.write m a b) = true :=
  Memory.wfFrom_write m 0 a b h (Nat.zero_le a) ha

/-- A block store inside the address space keeps the canonical form. -/
theorem Memory.wf_store (m : Memory) (a : Nat) (bs : List Byte) (h : Memory.wf m = true)
    (ha : a + bs.length ≤ Config.memSize) : Memory.wf (Memory.store m a bs) = true := by
  induction bs generalizing m a with
  | nil => exact h
  | cons b bs ih =>
    simp only [List.length_cons] at ha
    exact ih _ (a + 1) (Memory.wf_write b h (by omega)) (by omega)

/-- Reading a cell put in front: the byte given there, whether or not the cell is listed. -/
theorem Memory.read_consCell (m : Memory) (a a' : Nat) (b : Byte) (h : Memory.read m a = resetByte a) :
    Memory.read (Memory.consCell a b m) a' = if a' = a then b else Memory.read m a' := by
  unfold Memory.consCell
  split
  · rename_i hb
    split
    · rename_i ha
      rw [ha, h, hb]
    · rfl
  · rfl

/-- READ AFTER WRITE, in canonical memories: the byte written there, every other byte as before (R48). -/
theorem Memory.read_writeFrom (m : Memory) (low a a' : Nat) (b : Byte) (h : Memory.wfFrom low m = true) :
    Memory.read (Memory.write m a b) a' = if a' = a then b else Memory.read m a' := by
  induction m generalizing low with
  | nil => exact Memory.read_consCell [] a a' b rfl
  | cons c m ih =>
    obtain ⟨a0, b0⟩ := c
    simp only [Memory.wfFrom, Bool.and_eq_true, decide_eq_true_eq] at h
    obtain ⟨-, h4⟩ := h
    unfold Memory.write
    split
    · rename_i hlt
      refine Memory.read_consCell _ a a' b ?_
      rw [Memory.read_cons, if_neg (by omega)]
      exact Memory.read_below m (a0 + 1) h4 a (by omega)
    · split
      · rename_i _ he
        subst he
        rw [Memory.read_consCell m a a' b (Memory.read_below m (a + 1) h4 a (by omega)), Memory.read_cons]
        split <;> rfl
      · rename_i hn he
        rw [Memory.read_cons, ih (a0 + 1) h4, Memory.read_cons]
        by_cases h0 : a' = a0
        · rw [if_pos h0, if_neg (by omega), if_pos h0]
        · rw [if_neg h0, if_neg h0]

theorem Memory.read_write {m : Memory} (a a' : Nat) (b : Byte) (h : Memory.wf m = true) :
    Memory.read (Memory.write m a b) a' = if a' = a then b else Memory.read m a' :=
  Memory.read_writeFrom m 0 a a' b h

/-- A BLOCK STORE: byte `k` of the list at `a + k`, every other byte as before (R44, R54). -/
theorem Memory.read_store (m : Memory) (a : Nat) (bs : List Byte) (a' : Nat) (h : Memory.wf m = true)
    (ha : a + bs.length ≤ Config.memSize) :
    Memory.read (Memory.store m a bs) a' =
      if a ≤ a' ∧ a' < a + bs.length then bs.getD (a' - a) 0#8 else Memory.read m a' := by
  induction bs generalizing m a with
  | nil =>
    rw [if_neg (by simp only [List.length_nil]; omega)]
    rfl
  | cons b bs ih =>
    simp only [List.length_cons] at ha
    have hw := Memory.wf_write (m := m) (a := a) b h (by omega)
    have key := ih (Memory.write m a b) (a + 1) hw (by omega)
    rw [Memory.store, key, Memory.read_write a a' b h]
    simp only [List.length_cons]
    by_cases h1 : a' = a
    · subst h1
      rw [if_neg (by omega), if_pos rfl, if_pos (by omega), Nat.sub_self]
      rfl
    · by_cases h2 : a + 1 ≤ a' ∧ a' < a + 1 + bs.length
      · rw [if_pos h2, if_pos (by omega), show a' - a = (a' - (a + 1)) + 1 by omega, List.getD_cons_succ]
      · rw [if_neg h2, if_neg h1, if_neg (by omega)]

@[simp] theorem Memory.length_load (m : Memory) (a count : Nat) : (Memory.load m a count).length = count := by
  induction count generalizing a with
  | zero => rfl
  | succ n ih => simp only [Memory.load, List.length_cons, ih]

/-- A BLOCK LOAD: byte `k` of the list is the byte at `a + k` (R44). -/
theorem Memory.getD_load (m : Memory) (a count k : Nat) (hk : k < count) (d : Byte) :
    (Memory.load m a count).getD k d = Memory.read m (a + k) := by
  induction count generalizing a k with
  | zero => omega
  | succ n ih =>
    cases k with
    | zero => rfl
    | succ k =>
      rw [Memory.load, List.getD_cons_succ, ih (a + 1) k (by omega)]
      congr 1
      omega

theorem Memory.eq_of_readFrom (m m' : Memory) (low low' : Nat) (h : Memory.wfFrom low m = true)
    (h' : Memory.wfFrom low' m' = true) (hr : ∀ a, Memory.read m a = Memory.read m' a) : m = m' := by
  induction m generalizing m' low low' with
  | nil =>
    cases m' with
    | nil => rfl
    | cons c m' =>
      obtain ⟨a, b⟩ := c
      simp only [Memory.wfFrom, Bool.and_eq_true, decide_eq_true_eq, bne_iff_ne] at h'
      have := hr a
      rw [Memory.read_nil, Memory.read_cons, if_pos rfl] at this
      exact absurd this.symm h'.1.2
  | cons c m ih =>
    obtain ⟨a, b⟩ := c
    simp only [Memory.wfFrom, Bool.and_eq_true, decide_eq_true_eq, bne_iff_ne] at h
    obtain ⟨⟨⟨-, -⟩, h3⟩, h4⟩ := h
    cases m' with
    | nil =>
      have := hr a
      rw [Memory.read_nil, Memory.read_cons, if_pos rfl] at this
      exact absurd this h3
    | cons c' m' =>
      obtain ⟨a', b'⟩ := c'
      simp only [Memory.wfFrom, Bool.and_eq_true, decide_eq_true_eq, bne_iff_ne] at h'
      obtain ⟨⟨⟨-, -⟩, h3'⟩, h4'⟩ := h'
      have haa : a = a' := by
        rcases Nat.lt_trichotomy a a' with hlt | heq | hgt
        · have := hr a
          rw [Memory.read_cons, if_pos rfl, Memory.read_cons, if_neg (by omega),
            Memory.read_below m' (a' + 1) h4' a (by omega)] at this
          exact absurd this h3
        · exact heq
        · have := hr a'
          rw [Memory.read_cons, if_neg (by omega), Memory.read_cons, if_pos rfl,
            Memory.read_below m (a + 1) h4 a' (by omega)] at this
          exact absurd this.symm h3'
      subst haa
      have hb := hr a
      rw [Memory.read_cons, if_pos rfl, Memory.read_cons, if_pos rfl] at hb
      subst hb
      rw [ih m' (a + 1) (a + 1) h4 h4' fun k => ?_]
      have hk := hr k
      rw [Memory.read_cons, Memory.read_cons] at hk
      by_cases hka : k = a
      · subst hka
        rw [Memory.read_below m (k + 1) h4 k (by omega), Memory.read_below m' (k + 1) h4' k (by omega)]
      · rwa [if_neg hka, if_neg hka] at hk

/-- Canonical memories with equal contents are equal data. -/
theorem Memory.eq_of_read {m m' : Memory} (h : Memory.wf m = true) (h' : Memory.wf m' = true)
    (hr : ∀ a, Memory.read m a = Memory.read m' a) : m = m' :=
  Memory.eq_of_readFrom m m' 0 0 h h' hr

/-- Reset memory is canonical. -/
theorem Memory.wf_reset : Memory.wf State.reset.mem = true := rfl

@[simp] theorem length_bytesOfWord (w : Word) : (bytesOfWord w).length = 2 := rfl

@[simp] theorem length_bcdDigits (b : Byte) : (bcdDigits b).length = 3 := rfl

@[simp] theorem State.length_regsUpTo (s : State) (x : Reg) : (s.regsUpTo x).length = x.toNat + 1 := by
  have := x.isLt
  simp only [State.regsUpTo, List.length_take, Vector.length_toList]
  omega

end Sys2Proof.Machine
end

