-- ==== Sys2Proof/Laws/State.lean ====
section
/-! SUPPORT. What each update of State does to each field: true by definition, so that no later proof
unfolds a record update. -/

namespace Sys2Proof.Machine

variable (s : State)

/-! ### setV -/

@[simp] theorem State.v_setV (x : Reg) (b : Byte) : (s.setV x b).v = s.v.set x.toNat b x.isLt := rfl
@[simp] theorem State.i_setV (x : Reg) (b : Byte) : (s.setV x b).i = s.i := rfl
@[simp] theorem State.pc_setV (x : Reg) (b : Byte) : (s.setV x b).pc = s.pc := rfl
@[simp] theorem State.sp_setV (x : Reg) (b : Byte) : (s.setV x b).sp = s.sp := rfl
@[simp] theorem State.stack_setV (x : Reg) (b : Byte) : (s.setV x b).stack = s.stack := rfl
@[simp] theorem State.dt_setV (x : Reg) (b : Byte) : (s.setV x b).dt = s.dt := rfl
@[simp] theorem State.st_setV (x : Reg) (b : Byte) : (s.setV x b).st = s.st := rfl
@[simp] theorem State.mem_setV (x : Reg) (b : Byte) : (s.setV x b).mem = s.mem := rfl
@[simp] theorem State.fb_setV (x : Reg) (b : Byte) : (s.setV x b).fb = s.fb := rfl
@[simp] theorem State.key_setV (x : Reg) (b : Byte) : (s.setV x b).key = s.key := rfl
@[simp] theorem State.shouldDraw_setV (x : Reg) (b : Byte) : (s.setV x b).shouldDraw = s.shouldDraw := rfl
@[simp] theorem State.mode_setV (x : Reg) (b : Byte) : (s.setV x b).mode = s.mode := rfl
@[simp] theorem State.waitX_setV (x : Reg) (b : Byte) : (s.setV x b).waitX = s.waitX := rfl
@[simp] theorem State.draws_setV (x : Reg) (b : Byte) : (s.setV x b).draws = s.draws := rfl

/-! ### setVAll -/

@[simp] theorem State.v_setVAll (w : Vector Byte 16) : (s.setVAll w).v = w := rfl
@[simp] theorem State.i_setVAll (w : Vector Byte 16) : (s.setVAll w).i = s.i := rfl
@[simp] theorem State.pc_setVAll (w : Vector Byte 16) : (s.setVAll w).pc = s.pc := rfl
@[simp] theorem State.sp_setVAll (w : Vector Byte 16) : (s.setVAll w).sp = s.sp := rfl
@[simp] theorem State.stack_setVAll (w : Vector Byte 16) : (s.setVAll w).stack = s.stack := rfl
@[simp] theorem State.dt_setVAll (w : Vector Byte 16) : (s.setVAll w).dt = s.dt := rfl
@[simp] theorem State.st_setVAll (w : Vector Byte 16) : (s.setVAll w).st = s.st := rfl
@[simp] theorem State.mem_setVAll (w : Vector Byte 16) : (s.setVAll w).mem = s.mem := rfl
@[simp] theorem State.fb_setVAll (w : Vector Byte 16) : (s.setVAll w).fb = s.fb := rfl
@[simp] theorem State.key_setVAll (w : Vector Byte 16) : (s.setVAll w).key = s.key := rfl
@[simp] theorem State.shouldDraw_setVAll (w : Vector Byte 16) : (s.setVAll w).shouldDraw = s.shouldDraw := rfl
@[simp] theorem State.mode_setVAll (w : Vector Byte 16) : (s.setVAll w).mode = s.mode := rfl
@[simp] theorem State.waitX_setVAll (w : Vector Byte 16) : (s.setVAll w).waitX = s.waitX := rfl
@[simp] theorem State.draws_setVAll (w : Vector Byte 16) : (s.setVAll w).draws = s.draws := rfl

/-! ### setI -/

@[simp] theorem State.v_setI (w : Word) : (s.setI w).v = s.v := rfl
@[simp] theorem State.i_setI (w : Word) : (s.setI w).i = w := rfl
@[simp] theorem State.pc_setI (w : Word) : (s.setI w).pc = s.pc := rfl
@[simp] theorem State.sp_setI (w : Word) : (s.setI w).sp = s.sp := rfl
@[simp] theorem State.stack_setI (w : Word) : (s.setI w).stack = s.stack := rfl
@[simp] theorem State.dt_setI (w : Word) : (s.setI w).dt = s.dt := rfl
@[simp] theorem State.st_setI (w : Word) : (s.setI w).st = s.st := rfl
@[simp] theorem State.mem_setI (w : Word) : (s.setI w).mem = s.mem := rfl
@[simp] theorem State.fb_setI (w : Word) : (s.setI w).fb = s.fb := rfl
@[simp] theorem State.key_setI (w : Word) : (s.setI w).key = s.key := rfl
@[simp] theorem State.shouldDraw_setI (w : Word) : (s.setI w).shouldDraw = s.shouldDraw := rfl
@[simp] theorem State.mode_setI (w : Word) : (s.setI w).mode = s.mode := rfl
@[simp] theorem State.waitX_setI (w : Word) : (s.setI w).waitX = s.waitX := rfl
@[simp] theorem State.draws_setI (w : Word) : (s.setI w).draws = s.draws := rfl

/-! ### setPc -/

@[simp] theorem State.v_setPc (w : Word) : (s.setPc w).v = s.v := rfl
@[simp] theorem State.i_setPc (w : Word) : (s.setPc w).i = s.i := rfl
@[simp] theorem State.pc_setPc (w : Word) : (s.setPc w).pc = w := rfl
@[simp] theorem State.sp_setPc (w : Word) : (s.setPc w).sp = s.sp := rfl
@[simp] theorem State.stack_setPc (w : Word) : (s.setPc w).stack = s.stack := rfl
@[simp] theorem State.dt_setPc (w : Word) : (s.setPc w).dt = s.dt := rfl
@[simp] theorem State.st_setPc (w : Word) : (s.setPc w).st = s.st := rfl
@[simp] theorem State.mem_setPc (w : Word) : (s.setPc w).mem = s.mem := rfl
@[simp] theorem State.fb_setPc (w : Word) : (s.setPc w).fb = s.fb := rfl
@[simp] theorem State.key_setPc (w : Word) : (s.setPc w).key = s.key := rfl
@[simp] theorem State.shouldDraw_setPc (w : Word) : (s.setPc w).shouldDraw = s.shouldDraw := rfl
@[simp] theorem State.mode_setPc (w : Word) : (s.setPc w).mode = s.mode := rfl
@[simp] theorem State.waitX_setPc (w : Word) : (s.setPc w).waitX = s.waitX := rfl
@[simp] theorem State.draws_setPc (w : Word) : (s.setPc w).draws = s.draws := rfl

/-! ### setStack -/

@[simp] theorem State.v_setStack (k : Vector Word 16) (n : Fin 17) : (s.setStack k n).v = s.v := rfl
@[simp] theorem State.i_setStack (k : Vector Word 16) (n : Fin 17) : (s.setStack k n).i = s.i := rfl
@[simp] theorem State.pc_setStack (k : Vector Word 16) (n : Fin 17) : (s.setStack k n).pc = s.pc := rfl
@[simp] theorem State.sp_setStack (k : Vector Word 16) (n : Fin 17) : (s.setStack k n).sp = n := rfl
@[simp] theorem State.stack_setStack (k : Vector Word 16) (n : Fin 17) : (s.setStack k n).stack = k := rfl
@[simp] theorem State.dt_setStack (k : Vector Word 16) (n : Fin 17) : (s.setStack k n).dt = s.dt := rfl
@[simp] theorem State.st_setStack (k : Vector Word 16) (n : Fin 17) : (s.setStack k n).st = s.st := rfl
@[simp] theorem State.mem_setStack (k : Vector Word 16) (n : Fin 17) : (s.setStack k n).mem = s.mem := rfl
@[simp] theorem State.fb_setStack (k : Vector Word 16) (n : Fin 17) : (s.setStack k n).fb = s.fb := rfl
@[simp] theorem State.key_setStack (k : Vector Word 16) (n : Fin 17) : (s.setStack k n).key = s.key := rfl
@[simp] theorem State.shouldDraw_setStack (k : Vector Word 16) (n : Fin 17) : (s.setStack k n).shouldDraw = s.shouldDraw := rfl
@[simp] theorem State.mode_setStack (k : Vector Word 16) (n : Fin 17) : (s.setStack k n).mode = s.mode := rfl
@[simp] theorem State.waitX_setStack (k : Vector Word 16) (n : Fin 17) : (s.setStack k n).waitX = s.waitX := rfl
@[simp] theorem State.draws_setStack (k : Vector Word 16) (n : Fin 17) : (s.setStack k n).draws = s.draws := rfl

/-! ### setDt -/

@[simp] theorem State.v_setDt (b : Byte) : (s.setDt b).v = s.v := rfl
@[simp] theorem State.i_setDt (b : Byte) : (s.setDt b).i = s.i := rfl
@[simp] theorem State.pc_setDt (b : Byte) : (s.setDt b).pc = s.pc := rfl
@[simp] theorem State.sp_setDt (b : Byte) : (s.setDt b).sp = s.sp := rfl
@[simp] theorem State.stack_setDt (b : Byte) : (s.setDt b).stack = s.stack := rfl
@[simp] theorem State.dt_setDt (b : Byte) : (s.setDt b).dt = b := rfl
@[simp] theorem State.st_setDt (b : Byte) : (s.setDt b).st = s.st := rfl
@[simp] theorem State.mem_setDt (b : Byte) : (s.setDt b).mem = s.mem := rfl
@[simp] theorem State.fb_setDt (b : Byte) : (s.setDt b).fb = s.fb := rfl
@[simp] theorem State.key_setDt (b : Byte) : (s.setDt b).key = s.key := rfl
@[simp] theorem State.shouldDraw_setDt (b : Byte) : (s.setDt b).shouldDraw = s.shouldDraw := rfl
@[simp] theorem State.mode_setDt (b : Byte) : (s.setDt b).mode = s.mode := rfl
@[simp] theorem State.waitX_setDt (b : Byte) : (s.setDt b).waitX = s.waitX := rfl
@[simp] theorem State.draws_setDt (b : Byte) : (s.setDt b).draws = s.draws := rfl

/-! ### setSt -/

@[simp] theorem State.v_setSt (b : Byte) : (s.setSt b).v = s.v := rfl
@[simp] theorem State.i_setSt (b : Byte) : (s.setSt b).i = s.i := rfl
@[simp] theorem State.pc_setSt (b : Byte) : (s.setSt b).pc = s.pc := rfl
@[simp] theorem State.sp_setSt (b : Byte) : (s.setSt b).sp = s.sp := rfl
@[simp] theorem State.stack_setSt (b : Byte) : (s.setSt b).stack = s.stack := rfl
@[simp] theorem State.dt_setSt (b : Byte) : (s.setSt b).dt = s.dt := rfl
@[simp] theorem State.st_setSt (b : Byte) : (s.setSt b).st = b := rfl
@[simp] theorem State.mem_setSt (b : Byte) : (s.setSt b).mem = s.mem := rfl
@[simp] theorem State.fb_setSt (b : Byte) : (s.setSt b).fb = s.fb := rfl
@[simp] theorem State.key_setSt (b : Byte) : (s.setSt b).key = s.key := rfl
@[simp] theorem State.shouldDraw_setSt (b : Byte) : (s.setSt b).shouldDraw = s.shouldDraw := rfl
@[simp] theorem State.mode_setSt (b : Byte) : (s.setSt b).mode = s.mode := rfl
@[simp] theorem State.waitX_setSt (b : Byte) : (s.setSt b).waitX = s.waitX := rfl
@[simp] theorem State.draws_setSt (b : Byte) : (s.setSt b).draws = s.draws := rfl

/-! ### setMem -/

@[simp] theorem State.v_setMem (m : Memory) : (s.setMem m).v = s.v := rfl
@[simp] theorem State.i_setMem (m : Memory) : (s.setMem m).i = s.i := rfl
@[simp] theorem State.pc_setMem (m : Memory) : (s.setMem m).pc = s.pc := rfl
@[simp] theorem State.sp_setMem (m : Memory) : (s.setMem m).sp = s.sp := rfl
@[simp] theorem State.stack_setMem (m : Memory) : (s.setMem m).stack = s.stack := rfl
@[simp] theorem State.dt_setMem (m : Memory) : (s.setMem m).dt = s.dt := rfl
@[simp] theorem State.st_setMem (m : Memory) : (s.setMem m).st = s.st := rfl
@[simp] theorem State.mem_setMem (m : Memory) : (s.setMem m).mem = m := rfl
@[simp] theorem State.fb_setMem (m : Memory) : (s.setMem m).fb = s.fb := rfl
@[simp] theorem State.key_setMem (m : Memory) : (s.setMem m).key = s.key := rfl
@[simp] theorem State.shouldDraw_setMem (m : Memory) : (s.setMem m).shouldDraw = s.shouldDraw := rfl
@[simp] theorem State.mode_setMem (m : Memory) : (s.setMem m).mode = s.mode := rfl
@[simp] theorem State.waitX_setMem (m : Memory) : (s.setMem m).waitX = s.waitX := rfl
@[simp] theorem State.draws_setMem (m : Memory) : (s.setMem m).draws = s.draws := rfl

/-! ### setFb -/

@[simp] theorem State.v_setFb (f : Framebuffer) : (s.setFb f).v = s.v := rfl
@[simp] theorem State.i_setFb (f : Framebuffer) : (s.setFb f).i = s.i := rfl
@[simp] theorem State.pc_setFb (f : Framebuffer) : (s.setFb f).pc = s.pc := rfl
@[simp] theorem State.sp_setFb (f : Framebuffer) : (s.setFb f).sp = s.sp := rfl
@[simp] theorem State.stack_setFb (f : Framebuffer) : (s.setFb f).stack = s.stack := rfl
@[simp] theorem State.dt_setFb (f : Framebuffer) : (s.setFb f).dt = s.dt := rfl
@[simp] theorem State.st_setFb (f : Framebuffer) : (s.setFb f).st = s.st := rfl
@[simp] theorem State.mem_setFb (f : Framebuffer) : (s.setFb f).mem = s.mem := rfl
@[simp] theorem State.fb_setFb (f : Framebuffer) : (s.setFb f).fb = f := rfl
@[simp] theorem State.key_setFb (f : Framebuffer) : (s.setFb f).key = s.key := rfl
@[simp] theorem State.shouldDraw_setFb (f : Framebuffer) : (s.setFb f).shouldDraw = s.shouldDraw := rfl
@[simp] theorem State.mode_setFb (f : Framebuffer) : (s.setFb f).mode = s.mode := rfl
@[simp] theorem State.waitX_setFb (f : Framebuffer) : (s.setFb f).waitX = s.waitX := rfl
@[simp] theorem State.draws_setFb (f : Framebuffer) : (s.setFb f).draws = s.draws := rfl

/-! ### setShouldDraw -/

@[simp] theorem State.v_setShouldDraw (b : Bool) : (s.setShouldDraw b).v = s.v := rfl
@[simp] theorem State.i_setShouldDraw (b : Bool) : (s.setShouldDraw b).i = s.i := rfl
@[simp] theorem State.pc_setShouldDraw (b : Bool) : (s.setShouldDraw b).pc = s.pc := rfl
@[simp] theorem State.sp_setShouldDraw (b : Bool) : (s.setShouldDraw b).sp = s.sp := rfl
@[simp] theorem State.stack_setShouldDraw (b : Bool) : (s.setShouldDraw b).stack = s.stack := rfl
@[simp] theorem State.dt_setShouldDraw (b : Bool) : (s.setShouldDraw b).dt = s.dt := rfl
@[simp] theorem State.st_setShouldDraw (b : Bool) : (s.setShouldDraw b).st = s.st := rfl
@[simp] theorem State.mem_setShouldDraw (b : Bool) : (s.setShouldDraw b).mem = s.mem := rfl
@[simp] theorem State.fb_setShouldDraw (b : Bool) : (s.setShouldDraw b).fb = s.fb := rfl
@[simp] theorem State.key_setShouldDraw (b : Bool) : (s.setShouldDraw b).key = s.key := rfl
@[simp] theorem State.shouldDraw_setShouldDraw (b : Bool) : (s.setShouldDraw b).shouldDraw = b := rfl
@[simp] theorem State.mode_setShouldDraw (b : Bool) : (s.setShouldDraw b).mode = s.mode := rfl
@[simp] theorem State.waitX_setShouldDraw (b : Bool) : (s.setShouldDraw b).waitX = s.waitX := rfl
@[simp] theorem State.draws_setShouldDraw (b : Bool) : (s.setShouldDraw b).draws = s.draws := rfl

/-! ### setKeyAt -/

@[simp] theorem State.v_setKeyAt (k : Nibble) (b : Bool) : (s.setKeyAt k b).v = s.v := rfl
@[simp] theorem State.i_setKeyAt (k : Nibble) (b : Bool) : (s.setKeyAt k b).i = s.i := rfl
@[simp] theorem State.pc_setKeyAt (k : Nibble) (b : Bool) : (s.setKeyAt k b).pc = s.pc := rfl
@[simp] theorem State.sp_setKeyAt (k : Nibble) (b : Bool) : (s.setKeyAt k b).sp = s.sp := rfl
@[simp] theorem State.stack_setKeyAt (k : Nibble) (b : Bool) : (s.setKeyAt k b).stack = s.stack := rfl
@[simp] theorem State.dt_setKeyAt (k : Nibble) (b : Bool) : (s.setKeyAt k b).dt = s.dt := rfl
@[simp] theorem State.st_setKeyAt (k : Nibble) (b : Bool) : (s.setKeyAt k b).st = s.st := rfl
@[simp] theorem State.mem_setKeyAt (k : Nibble) (b : Bool) : (s.setKeyAt k b).mem = s.mem := rfl
@[simp] theorem State.fb_setKeyAt (k : Nibble) (b : Bool) : (s.setKeyAt k b).fb = s.fb := rfl
@[simp] theorem State.key_setKeyAt (k : Nibble) (b : Bool) : (s.setKeyAt k b).key = s.key.set k.toNat b k.isLt := rfl
@[simp] theorem State.shouldDraw_setKeyAt (k : Nibble) (b : Bool) : (s.setKeyAt k b).shouldDraw = s.shouldDraw := rfl
@[simp] theorem State.mode_setKeyAt (k : Nibble) (b : Bool) : (s.setKeyAt k b).mode = s.mode := rfl
@[simp] theorem State.waitX_setKeyAt (k : Nibble) (b : Bool) : (s.setKeyAt k b).waitX = s.waitX := rfl
@[simp] theorem State.draws_setKeyAt (k : Nibble) (b : Bool) : (s.setKeyAt k b).draws = s.draws := rfl

/-! ### enterWait -/

@[simp] theorem State.v_enterWait (x : Reg) : (s.enterWait x).v = s.v := rfl
@[simp] theorem State.i_enterWait (x : Reg) : (s.enterWait x).i = s.i := rfl
@[simp] theorem State.pc_enterWait (x : Reg) : (s.enterWait x).pc = s.pc := rfl
@[simp] theorem State.sp_enterWait (x : Reg) : (s.enterWait x).sp = s.sp := rfl
@[simp] theorem State.stack_enterWait (x : Reg) : (s.enterWait x).stack = s.stack := rfl
@[simp] theorem State.dt_enterWait (x : Reg) : (s.enterWait x).dt = s.dt := rfl
@[simp] theorem State.st_enterWait (x : Reg) : (s.enterWait x).st = s.st := rfl
@[simp] theorem State.mem_enterWait (x : Reg) : (s.enterWait x).mem = s.mem := rfl
@[simp] theorem State.fb_enterWait (x : Reg) : (s.enterWait x).fb = s.fb := rfl
@[simp] theorem State.key_enterWait (x : Reg) : (s.enterWait x).key = s.key := rfl
@[simp] theorem State.shouldDraw_enterWait (x : Reg) : (s.enterWait x).shouldDraw = s.shouldDraw := rfl
@[simp] theorem State.mode_enterWait (x : Reg) : (s.enterWait x).mode = .awaitingKey := rfl
@[simp] theorem State.waitX_enterWait (x : Reg) : (s.enterWait x).waitX = x := rfl
@[simp] theorem State.draws_enterWait (x : Reg) : (s.enterWait x).draws = s.draws := rfl

/-! ### leaveWait -/

@[simp] theorem State.v_leaveWait : s.leaveWait.v = s.v := rfl
@[simp] theorem State.i_leaveWait : s.leaveWait.i = s.i := rfl
@[simp] theorem State.pc_leaveWait : s.leaveWait.pc = s.pc := rfl
@[simp] theorem State.sp_leaveWait : s.leaveWait.sp = s.sp := rfl
@[simp] theorem State.stack_leaveWait : s.leaveWait.stack = s.stack := rfl
@[simp] theorem State.dt_leaveWait : s.leaveWait.dt = s.dt := rfl
@[simp] theorem State.st_leaveWait : s.leaveWait.st = s.st := rfl
@[simp] theorem State.mem_leaveWait : s.leaveWait.mem = s.mem := rfl
@[simp] theorem State.fb_leaveWait : s.leaveWait.fb = s.fb := rfl
@[simp] theorem State.key_leaveWait : s.leaveWait.key = s.key := rfl
@[simp] theorem State.shouldDraw_leaveWait : s.leaveWait.shouldDraw = s.shouldDraw := rfl
@[simp] theorem State.mode_leaveWait : s.leaveWait.mode = .running := rfl
@[simp] theorem State.waitX_leaveWait : s.leaveWait.waitX = s.waitX := rfl
@[simp] theorem State.draws_leaveWait : s.leaveWait.draws = s.draws := rfl

/-! ### countDraw -/

@[simp] theorem State.v_countDraw : s.countDraw.v = s.v := rfl
@[simp] theorem State.i_countDraw : s.countDraw.i = s.i := rfl
@[simp] theorem State.pc_countDraw : s.countDraw.pc = s.pc := rfl
@[simp] theorem State.sp_countDraw : s.countDraw.sp = s.sp := rfl
@[simp] theorem State.stack_countDraw : s.countDraw.stack = s.stack := rfl
@[simp] theorem State.dt_countDraw : s.countDraw.dt = s.dt := rfl
@[simp] theorem State.st_countDraw : s.countDraw.st = s.st := rfl
@[simp] theorem State.mem_countDraw : s.countDraw.mem = s.mem := rfl
@[simp] theorem State.fb_countDraw : s.countDraw.fb = s.fb := rfl
@[simp] theorem State.key_countDraw : s.countDraw.key = s.key := rfl
@[simp] theorem State.shouldDraw_countDraw : s.countDraw.shouldDraw = s.shouldDraw := rfl
@[simp] theorem State.mode_countDraw : s.countDraw.mode = s.mode := rfl
@[simp] theorem State.waitX_countDraw : s.countDraw.waitX = s.waitX := rfl
@[simp] theorem State.draws_countDraw : s.countDraw.draws = s.draws + 1 := rfl

/-! ### advance -/

@[simp] theorem State.v_advance : s.advance.v = s.v := rfl
@[simp] theorem State.i_advance : s.advance.i = s.i := rfl
@[simp] theorem State.pc_advance : s.advance.pc = s.pc + 2#16 := rfl
@[simp] theorem State.sp_advance : s.advance.sp = s.sp := rfl
@[simp] theorem State.stack_advance : s.advance.stack = s.stack := rfl
@[simp] theorem State.dt_advance : s.advance.dt = s.dt := rfl
@[simp] theorem State.st_advance : s.advance.st = s.st := rfl
@[simp] theorem State.mem_advance : s.advance.mem = s.mem := rfl
@[simp] theorem State.fb_advance : s.advance.fb = s.fb := rfl
@[simp] theorem State.key_advance : s.advance.key = s.key := rfl
@[simp] theorem State.shouldDraw_advance : s.advance.shouldDraw = s.shouldDraw := rfl
@[simp] theorem State.mode_advance : s.advance.mode = s.mode := rfl
@[simp] theorem State.waitX_advance : s.advance.waitX = s.waitX := rfl
@[simp] theorem State.draws_advance : s.advance.draws = s.draws := rfl

/-! ### skipIf -/

@[simp] theorem State.v_skipIf (c : Bool) : (s.skipIf c).v = s.v := rfl
@[simp] theorem State.i_skipIf (c : Bool) : (s.skipIf c).i = s.i := rfl
@[simp] theorem State.pc_skipIf (c : Bool) : (s.skipIf c).pc = s.pc + if c then 4#16 else 2#16 := rfl
@[simp] theorem State.sp_skipIf (c : Bool) : (s.skipIf c).sp = s.sp := rfl
@[simp] theorem State.stack_skipIf (c : Bool) : (s.skipIf c).stack = s.stack := rfl
@[simp] theorem State.dt_skipIf (c : Bool) : (s.skipIf c).dt = s.dt := rfl
@[simp] theorem State.st_skipIf (c : Bool) : (s.skipIf c).st = s.st := rfl
@[simp] theorem State.mem_skipIf (c : Bool) : (s.skipIf c).mem = s.mem := rfl
@[simp] theorem State.fb_skipIf (c : Bool) : (s.skipIf c).fb = s.fb := rfl
@[simp] theorem State.key_skipIf (c : Bool) : (s.skipIf c).key = s.key := rfl
@[simp] theorem State.shouldDraw_skipIf (c : Bool) : (s.skipIf c).shouldDraw = s.shouldDraw := rfl
@[simp] theorem State.mode_skipIf (c : Bool) : (s.skipIf c).mode = s.mode := rfl
@[simp] theorem State.waitX_skipIf (c : Bool) : (s.skipIf c).waitX = s.waitX := rfl
@[simp] theorem State.draws_skipIf (c : Bool) : (s.skipIf c).draws = s.draws := rfl

/-! ### tick -/

@[simp] theorem State.v_tick : s.tick.v = s.v := rfl
@[simp] theorem State.i_tick : s.tick.i = s.i := rfl
@[simp] theorem State.pc_tick : s.tick.pc = s.pc := rfl
@[simp] theorem State.sp_tick : s.tick.sp = s.sp := rfl
@[simp] theorem State.stack_tick : s.tick.stack = s.stack := rfl
@[simp] theorem State.dt_tick : s.tick.dt = countDown s.dt := rfl
@[simp] theorem State.st_tick : s.tick.st = countDown s.st := rfl
@[simp] theorem State.mem_tick : s.tick.mem = s.mem := rfl
@[simp] theorem State.fb_tick : s.tick.fb = s.fb := rfl
@[simp] theorem State.key_tick : s.tick.key = s.key := rfl
@[simp] theorem State.shouldDraw_tick : s.tick.shouldDraw = s.shouldDraw := rfl
@[simp] theorem State.mode_tick : s.tick.mode = s.mode := rfl
@[simp] theorem State.waitX_tick : s.tick.waitX = s.waitX := rfl
@[simp] theorem State.draws_tick : s.tick.draws = s.draws := rfl

/-! ### writeWithFlag -/

@[simp] theorem State.v_writeWithFlag (x : Reg) (b : Byte) (c : Bool) : (s.writeWithFlag x b c).v = ((s.setV x b).setV regF (flagByte c)).v := rfl
@[simp] theorem State.i_writeWithFlag (x : Reg) (b : Byte) (c : Bool) : (s.writeWithFlag x b c).i = s.i := rfl
@[simp] theorem State.pc_writeWithFlag (x : Reg) (b : Byte) (c : Bool) : (s.writeWithFlag x b c).pc = s.pc := rfl
@[simp] theorem State.sp_writeWithFlag (x : Reg) (b : Byte) (c : Bool) : (s.writeWithFlag x b c).sp = s.sp := rfl
@[simp] theorem State.stack_writeWithFlag (x : Reg) (b : Byte) (c : Bool) : (s.writeWithFlag x b c).stack = s.stack := rfl
@[simp] theorem State.dt_writeWithFlag (x : Reg) (b : Byte) (c : Bool) : (s.writeWithFlag x b c).dt = s.dt := rfl
@[simp] theorem State.st_writeWithFlag (x : Reg) (b : Byte) (c : Bool) : (s.writeWithFlag x b c).st = s.st := rfl
@[simp] theorem State.mem_writeWithFlag (x : Reg) (b : Byte) (c : Bool) : (s.writeWithFlag x b c).mem = s.mem := rfl
@[simp] theorem State.fb_writeWithFlag (x : Reg) (b : Byte) (c : Bool) : (s.writeWithFlag x b c).fb = s.fb := rfl
@[simp] theorem State.key_writeWithFlag (x : Reg) (b : Byte) (c : Bool) : (s.writeWithFlag x b c).key = s.key := rfl
@[simp] theorem State.shouldDraw_writeWithFlag (x : Reg) (b : Byte) (c : Bool) : (s.writeWithFlag x b c).shouldDraw = s.shouldDraw := rfl
@[simp] theorem State.mode_writeWithFlag (x : Reg) (b : Byte) (c : Bool) : (s.writeWithFlag x b c).mode = s.mode := rfl
@[simp] theorem State.waitX_writeWithFlag (x : Reg) (b : Byte) (c : Bool) : (s.writeWithFlag x b c).waitX = s.waitX := rfl
@[simp] theorem State.draws_writeWithFlag (x : Reg) (b : Byte) (c : Bool) : (s.writeWithFlag x b c).draws = s.draws := rfl

end Sys2Proof.Machine
end

