-- ==== Sys2Proof/Laws/Ops.lean ====
section
/-! SUPPORT. What each shared operation can do, said once: register access, spans, the moves of `PC`, the
stack, the tick, the fetch, the cycle. -/

namespace Sys2Proof.Machine

/-! ### Registers -/

/-- Register access after a register write. -/
theorem State.getV_setV (s : State) (x r : Reg) (b : Byte) :
    (s.setV x b).getV r = if r = x then b else s.getV r := by
  simp only [State.getV, State.setV, Vector.getElem_set]
  by_cases h : r = x
  · subst h
    simp
  · rw [if_neg h, if_neg]
    intro hx
    exact h (BitVec.eq_of_toNat_eq hx.symm)

@[simp] theorem State.getV_setV_same (s : State) (x : Reg) (b : Byte) : (s.setV x b).getV x = b := by
  rw [State.getV_setV, if_pos rfl]

theorem State.getV_setV_ne (s : State) {x r : Reg} (b : Byte) (h : r ≠ x) : (s.setV x b).getV r = s.getV r := by
  rw [State.getV_setV, if_neg h]

/-- Only the register file matters to register access. -/
theorem State.getV_congr {s t : State} (h : t.v = s.v) (r : Reg) : t.getV r = s.getV r := by
  simp only [State.getV, h]

/-- Result first, flag second (R133): `VF` holds the flag, `V[x]` the result unless it is `VF`. -/
theorem State.getV_writeWithFlag (s : State) (x r : Reg) (b : Byte) (c : Bool) :
    (s.writeWithFlag x b c).getV r = if r = regF then flagByte c else if r = x then b else s.getV r := by
  rw [State.writeWithFlag, State.getV_setV, State.getV_setV]

@[simp] theorem State.getV_setVAll (s : State) (v : Vector Byte 16) (r : Reg) :
    (s.setVAll v).getV r = v[r.toNat]'r.isLt := rfl

@[simp] theorem State.getV_setI (s : State) (w : Word) (r : Reg) : (s.setI w).getV r = s.getV r := rfl
@[simp] theorem State.getV_setPc (s : State) (w : Word) (r : Reg) : (s.setPc w).getV r = s.getV r := rfl
@[simp] theorem State.getV_setStack (s : State) (k : Vector Word 16) (n : Fin 17) (r : Reg) :
    (s.setStack k n).getV r = s.getV r := rfl
@[simp] theorem State.getV_setDt (s : State) (b : Byte) (r : Reg) : (s.setDt b).getV r = s.getV r := rfl
@[simp] theorem State.getV_setSt (s : State) (b : Byte) (r : Reg) : (s.setSt b).getV r = s.getV r := rfl
@[simp] theorem State.getV_setMem (s : State) (m : Memory) (r : Reg) : (s.setMem m).getV r = s.getV r := rfl
@[simp] theorem State.getV_setFb (s : State) (f : Framebuffer) (r : Reg) : (s.setFb f).getV r = s.getV r := rfl
@[simp] theorem State.getV_setShouldDraw (s : State) (b : Bool) (r : Reg) :
    (s.setShouldDraw b).getV r = s.getV r := rfl
@[simp] theorem State.getV_setKeyAt (s : State) (k : Nibble) (b : Bool) (r : Reg) :
    (s.setKeyAt k b).getV r = s.getV r := rfl
@[simp] theorem State.getV_enterWait (s : State) (x r : Reg) : (s.enterWait x).getV r = s.getV r := rfl
@[simp] theorem State.getV_leaveWait (s : State) (r : Reg) : s.leaveWait.getV r = s.getV r := rfl
@[simp] theorem State.getV_countDraw (s : State) (r : Reg) : s.countDraw.getV r = s.getV r := rfl

@[simp] theorem State.getV_advance (s : State) (r : Reg) : s.advance.getV r = s.getV r := rfl
@[simp] theorem State.getV_skipIf (s : State) (c : Bool) (r : Reg) : (s.skipIf c).getV r = s.getV r := rfl
@[simp] theorem State.getV_tick (s : State) (r : Reg) : s.tick.getV r = s.getV r := rfl

/-- A key after a key write (R187). -/
theorem State.keyAt_setKeyAt (s : State) (k j : Nibble) (b : Bool) :
    (s.setKeyAt k b).keyAt j = if j = k then b else s.keyAt j := by
  simp only [State.keyAt, State.setKeyAt, Vector.getElem_set]
  by_cases h : j = k
  · subst h
    simp
  · rw [if_neg h, if_neg]
    intro hx
    exact h (BitVec.eq_of_toNat_eq hx.symm)

/-! ### Spans -/

/-- A span fits exactly when it is empty or its last byte is at 4095 or below (R43). -/
theorem spanFits_iff (base count : Nat) : spanFits base count = true ↔ count = 0 ∨ base + count ≤ 4096 := by
  simp only [spanFits, Bool.or_eq_true, beq_iff_eq, decide_eq_true_eq]
  omega

/-- All a span check can do: go on, or raise with the lowest address above 4095 (R43, R173). -/
theorem withSpan_eq (base count : Nat) (go : Result) :
    withSpan base count go =
      if count = 0 ∨ base + count ≤ 4096 then go else .fault (.outOfBounds (max base 4096)) := by
  unfold withSpan raise
  by_cases h : spanFits base count = true
  · rw [if_pos h, if_pos ((spanFits_iff base count).1 h)]
  · rw [if_neg h, if_neg fun h' => h ((spanFits_iff base count).2 h')]

/-! ### Moves of `PC` -/

/-- Two more is two more while it fits 16 bits (R13: it always does in a run). -/
theorem toNat_add_two (w : Word) (h : w.toNat < 65534) : (w + 2#16).toNat = w.toNat + 2 := by
  rw [BitVec.toNat_add]
  simp only [BitVec.toNat_ofNat]
  omega

theorem toNat_add_four (w : Word) (h : w.toNat < 65532) : (w + 4#16).toNat = w.toNat + 4 := by
  rw [BitVec.toNat_add]
  simp only [BitVec.toNat_ofNat]
  omega

@[simp] theorem toNat_addrOf (nnn : Addr) : (addrOf nnn).toNat = nnn.toNat := by
  simp only [addrOf, BitVec.toNat_setWidth]
  have := nnn.isLt
  omega

@[simp] theorem toNat_addrPlus (nnn : Addr) (b : Byte) : (addrPlus nnn b).toNat = nnn.toNat + b.toNat := by
  simp only [addrPlus, BitVec.toNat_add, BitVec.toNat_setWidth]
  have := nnn.isLt
  have := b.isLt
  omega

/-! ### Stack -/

/-- All a push can do (R14, R103). -/
theorem State.push_cases (s : State) (w : Word) :
    (∃ (h : s.sp.val < 16), s.push w = some (s.setStack (s.stack.set s.sp.val w h) ⟨s.sp.val + 1, by omega⟩)) ∨
    (s.sp.val = 16 ∧ s.push w = none) := by
  by_cases h : s.sp.val < 16
  · exact .inl ⟨h, by rw [State.push, dif_pos h]⟩
  · refine .inr ⟨?_, by rw [State.push, dif_neg h]⟩
    have := s.sp.isLt
    omega

/-- All a pop can do (R14, R101). -/
theorem State.pop_cases (s : State) :
    (∃ (h : 0 < s.sp.val), s.pop =
      some (s.stack[s.sp.val - 1]'(by omega), s.setStack s.stack ⟨s.sp.val - 1, by omega⟩)) ∨
    (s.sp.val = 0 ∧ s.pop = none) := by
  by_cases h : 0 < s.sp.val
  · exact .inl ⟨h, by rw [State.pop, dif_pos h]⟩
  · exact .inr ⟨by omega, by rw [State.pop, dif_neg h]⟩

/-- A push looks at the stack alone: with another `ST` it does the same (R166). -/
theorem State.push_setSt (s : State) (b : Byte) (w : Word) :
    (s.setSt b).push w = (s.push w).map fun t => t.setSt b := by
  rcases State.push_cases s w with ⟨h, e⟩ | ⟨h, e⟩ <;> rcases State.push_cases (s.setSt b) w with ⟨h', e'⟩ | ⟨h', e'⟩
  · rw [e, e']
    rfl
  · exact absurd h' (by simp only [State.sp_setSt]; omega)
  · exact absurd h' (by simp only [State.sp_setSt]; omega)
  · rw [e, e']
    rfl

/-- A pop looks at the stack alone: with another `ST` it does the same (R166). -/
theorem State.pop_setSt (s : State) (b : Byte) :
    (s.setSt b).pop = s.pop.map fun q => (q.1, q.2.setSt b) := by
  rcases State.pop_cases s with ⟨h, e⟩ | ⟨h, e⟩ <;> rcases State.pop_cases (s.setSt b) with ⟨h', e'⟩ | ⟨h', e'⟩
  · rw [e, e']
    rfl
  · exact absurd h' (by simp only [State.sp_setSt]; omega)
  · exact absurd h' (by simp only [State.sp_setSt]; omega)
  · rw [e, e']
    rfl

/-! ### Timers -/

/-- "subtracts 1 from each one that is not 0 and leaves a 0 at 0" (R15), as numbers. -/
theorem toNat_countDown (b : Byte) : (countDown b).toNat = b.toNat - 1 := by
  unfold countDown
  split
  · rename_i h
    subst h
    rfl
  · rename_i h
    have h0 : b.toNat ≠ 0 := fun h0 => h (BitVec.eq_of_toNat_eq h0)
    have := b.isLt
    rw [BitVec.toNat_sub]
    simp only [BitVec.toNat_ofNat]
    omega

/-- A tick writes the two timers and nothing else (R86). -/
theorem State.tick_eq (s : State) : s.tick = { s with dt := countDown s.dt, st := countDown s.st } := rfl

/-- The end of a successful step, for either setting of the parameter (R86). -/
theorem State.tickIf_eq (s : State) (c : Bool) :
    s.tickIf c = { s with dt := if c then countDown s.dt else s.dt, st := if c then countDown s.st else s.st } := by
  cases c <;> rfl

/-! ### Fetch and cycle -/

/-- All a fetch can do (R81). -/
theorem State.fetch_cases (s : State) :
    (s.pc.toNat ≤ 4094 ∧ s.fetch = .ok (wordOfBytes (s.readByte s.pc.toNat) (s.readByte (s.pc.toNat + 1)))) ∨
    (4095 ≤ s.pc.toNat ∧ s.fetch = .error (.outOfBounds s.pc.toNat)) := by
  by_cases h : s.pc.toNat + 1 ≤ 4095
  · exact .inl ⟨by omega, by rw [State.fetch, if_pos h]⟩
  · exact .inr ⟨by omega, by rw [State.fetch, if_neg h]⟩

/-- All `decode` can answer: an instruction, or `invalidOpcode` with the whole word (R83). -/
theorem decode_cases (w : Word) :
    (∃ i, decode w = .ok i) ∨ decode w = .error (.invalidOpcode w) := by
  unfold decode
  split
  · exact .inl ⟨_, rfl⟩
  · exact .inr rfl

/-- All the front of the cycle can do: an instruction fetched from an address that exists, the fetch's error,
or the dispatch's (R81 to R83). -/
theorem State.nextInstr_cases (s : State) :
    (∃ i, s.pc.toNat ≤ 4094 ∧ decode (wordOfBytes (s.readByte s.pc.toNat) (s.readByte (s.pc.toNat + 1))) = .ok i ∧
      s.nextInstr = .ok i) ∨
    (4095 ≤ s.pc.toNat ∧ s.nextInstr = .error (.outOfBounds s.pc.toNat)) ∨
    (∃ w, s.pc.toNat ≤ 4094 ∧ s.fetch = .ok w ∧ decode w = .error (.invalidOpcode w) ∧
      s.nextInstr = .error (.invalidOpcode w)) := by
  rcases State.fetch_cases s with ⟨hp, hf⟩ | ⟨hp, hf⟩
  · rcases decode_cases (wordOfBytes (s.readByte s.pc.toNat) (s.readByte (s.pc.toNat + 1))) with ⟨i, hd⟩ | hd
    · exact .inl ⟨i, hp, hd, by simp only [State.nextInstr, hf, hd]⟩
    · exact .inr (.inr ⟨_, hp, hf, hd, by simp only [State.nextInstr, hf, hd]⟩)
  · exact .inr (.inl ⟨hp, by simp only [State.nextInstr, hf]⟩)

/-- WHAT A CYCLE CAN DO when it answers a next state: the idle tick, or an instruction of `exec` and then the
tick (R80, R88). -/
theorem cycle_next {p : Params} {s u : State} (h : cycle p s = .next u) :
    (s.mode = .awaitingKey ∧ u = s.tickIf p.tickInStep) ∨
    (∃ i t, s.mode = .running ∧ s.pc.toNat ≤ 4094 ∧ s.nextInstr = .ok i ∧ exec i s = .next t ∧
      u = t.tickIf p.tickInStep) := by
  unfold cycle at h
  split at h
  · rename_i hm
    exact .inl ⟨hm, by cases h; rfl⟩
  · rename_i hm
    rcases State.nextInstr_cases s with ⟨i, hp, hd, hn⟩ | ⟨hp, hn⟩ | ⟨w, hp, hf, hd, hn⟩
    · rw [hn] at h
      simp only at h
      cases he : exec i s with
      | next t =>
        rw [he] at h
        exact .inr ⟨i, t, hm, hp, hn, he, by cases h; rfl⟩
      | fault f => rw [he] at h; cases h
      | refused r => rw [he] at h; cases h
    · rw [hn] at h
      cases h
    · rw [hn] at h
      cases h

/-- In Running mode the cycle executes the instruction its front finds, and then ticks (R80). -/
theorem cycle_of_nextInstr {p : Params} {s : State} {i : Instr} (hm : s.mode = .running)
    (hn : s.nextInstr = .ok i) : cycle p s = Outcome.tickIf p.tickInStep (exec i s) := by
  simp only [cycle, hm, hn]

end Sys2Proof.Machine
end

