-- ==== Sys2Proof/Laws/Display.lean ====
section
/-! SUPPORT. The sprite engine (44_display.md R151, R152): every cell ends as its old value XOR the sprite bit
that falls on it, and the collision says whether a lit cell had a 1 bit on it. -/

namespace Sys2Proof.Machine

/-- Every pixel has a cell of the framebuffer (R152). -/
theorem cellIndex_lt (px py : Nat) : cellIndex px py < 2048 := by
  simp only [cellIndex, Config.fbHeight, Config.fbWidth]
  omega

theorem cellIndex_div (px py : Nat) : cellIndex px py / 64 = py % 32 := by
  simp only [cellIndex, Config.fbHeight, Config.fbWidth]
  omega

theorem cellIndex_mod (px py : Nat) : cellIndex px py % 64 = px % 64 := by
  simp only [cellIndex, Config.fbHeight, Config.fbWidth]
  omega

/-- A cell after a clear (R150). -/
theorem cell_clear (j : Nat) : Framebuffer.cell clearFramebuffer j = false := by
  simp only [Framebuffer.cell, Framebuffer.row, clearFramebuffer, Vector.getElem?_replicate]
  split <;> simp

/-- A flip turns its own cell over and leaves every other cell. -/
theorem cell_flip (fb : Framebuffer) (idx j : Nat) (h : idx < 2048) :
    Framebuffer.cell (Framebuffer.flip fb idx) j = (Framebuffer.cell fb j ^^ decide (j = idx)) := by
  have hi : idx / 64 < 32 := by omega
  simp only [Framebuffer.cell, Framebuffer.flip, Framebuffer.row, Vector.getElem?_setIfInBounds]
  by_cases hr : idx / 64 = j / 64
  · have hm : idx % 64 < 64 := Nat.mod_lt _ (by omega)
    rw [← hr, if_pos rfl, if_pos hi, Option.getD_some, BitVec.getLsbD_xor, BitVec.getLsbD_twoPow]
    congr 1
    simp only [hm, decide_true, Bool.true_and, decide_eq_decide]
    omega
  · have : j ≠ idx := fun he => hr (by rw [he])
    rw [if_neg hr, decide_eq_false this, Bool.xor_false]

/-- One sprite bit on one cell (R151). -/
theorem cell_drawBit (c : Canvas) (idx j : Nat) (bit : Bool) (h : idx < 2048) :
    Framebuffer.cell (drawBit c idx bit).fb j = (Framebuffer.cell c.fb j ^^ (bit && decide (j = idx))) := by
  cases bit
  · simp [drawBit]
  · simp [drawBit, cell_flip c.fb idx j h]

theorem collision_drawBit (c : Canvas) (idx : Nat) (bit : Bool) :
    (drawBit c idx bit).collision = (c.collision || (bit && Framebuffer.cell c.fb idx)) := by
  cases bit <;> simp [drawBit]

/-- The bit of one sprite row, drawn from column `vx` of row `py`, that falls on cell `j`, columns `lo` up to
`hi` of the sprite only. -/
def rowBit (vx py : Nat) (b : Byte) (lo hi j : Nat) : Bool :=
  decide (j < 2048) && decide (j / 64 = py % 32) && decide (lo ≤ (j % 64 + 64 - vx % 64) % 64) &&
    decide ((j % 64 + 64 - vx % 64) % 64 < hi) && b.getLsbD (7 - (j % 64 + 64 - vx % 64) % 64)

/-- The cell of sprite column `col` is the one that lies `col` columns after the start, wrapped. -/
theorem eq_cellIndex_iff (vx py col j : Nat) (hc : col < 8) :
    j = cellIndex (vx + col) py ↔ j < 2048 ∧ j / 64 = py % 32 ∧ (j % 64 + 64 - vx % 64) % 64 = col := by
  simp only [cellIndex, Config.fbHeight, Config.fbWidth]
  omega

/-- The first bit of a run of columns, and the rest of the run. -/
theorem rowBit_succ (vx py : Nat) (b : Byte) (lo hi j : Nat) (hlo : lo < 8) (hhi : lo < hi) :
    rowBit vx py b lo hi j =
      ((b.getLsbD (7 - lo) && decide (j = cellIndex (vx + lo) py)) ^^ rowBit vx py b (lo + 1) hi j) ∧
    (rowBit vx py b (lo + 1) hi j = true → j ≠ cellIndex (vx + lo) py) := by
  have key := eq_cellIndex_iff vx py lo j hlo
  constructor
  · by_cases hj : j = cellIndex (vx + lo) py
    · obtain ⟨h1, h2, h3⟩ := key.1 hj
      simp only [rowBit, h1, h2, h3, ← hj, hhi, decide_true, Bool.true_and, Bool.and_true, Nat.le_refl]
      simp [show ¬ lo + 1 ≤ lo by omega]
    · simp only [hj, decide_false, Bool.and_false, Bool.false_xor]
      simp only [rowBit]
      by_cases h12 : j < 2048 ∧ j / 64 = py % 32
      · have h3 : (j % 64 + 64 - vx % 64) % 64 ≠ lo := fun h3 => hj (key.2 ⟨h12.1, h12.2, h3⟩)
        congr 3
        rw [decide_eq_decide]
        omega
      · rcases Classical.not_and_iff_not_or_not.1 h12 with h | h <;> simp [h]
  · intro hr hj
    obtain ⟨-, -, h3⟩ := key.1 hj
    simp only [rowBit, h3, Bool.and_eq_true, decide_eq_true_eq] at hr
    omega

/-- A run of columns of one sprite row (R151). -/
theorem cell_drawBits (vx py : Nat) (b : Byte) (col count : Nat) (c : Canvas) (h : col + count ≤ 8) (j : Nat) :
    Framebuffer.cell (drawBits vx py b col count c).fb j =
      (Framebuffer.cell c.fb j ^^ rowBit vx py b col (col + count) j) := by
  induction count generalizing col c with
  | zero =>
    have : rowBit vx py b col (col + 0) j = false := by
      rw [Bool.eq_false_iff]
      intro hr
      simp only [rowBit, Bool.and_eq_true, decide_eq_true_eq] at hr
      omega
    rw [this, Bool.xor_false]
    rfl
  | succ n ih =>
    rw [drawBits, ih (col + 1) _ (by omega), cell_drawBit _ _ _ _ (cellIndex_lt _ _),
      show col + 1 + n = col + (n + 1) by omega,
      (rowBit_succ vx py b col (col + (n + 1)) j (by omega) (by omega)).1, Bool.xor_assoc]

theorem collision_drawBits (vx py : Nat) (b : Byte) (col count : Nat) (c : Canvas) (h : col + count ≤ 8) :
    (drawBits vx py b col count c).collision = true ↔
      c.collision = true ∨ ∃ j, rowBit vx py b col (col + count) j = true ∧ Framebuffer.cell c.fb j = true := by
  induction count generalizing col c with
  | zero =>
    have : ∀ j, rowBit vx py b col (col + 0) j ≠ true := by
      intro j hr
      simp only [rowBit, Bool.and_eq_true, decide_eq_true_eq] at hr
      omega
    exact ⟨.inl, fun h => h.elim id fun ⟨j, hr, _⟩ => absurd hr (this j)⟩
  | succ n ih =>
    have hs := fun j => rowBit_succ vx py b col (col + (n + 1)) j (by omega) (by omega)
    rw [drawBits, ih (col + 1) _ (by omega), collision_drawBit, show col + 1 + n = col + (n + 1) by omega]
    simp only [Bool.or_eq_true, Bool.and_eq_true, or_assoc]
    refine or_congr Iff.rfl ⟨?_, ?_⟩
    · rintro (⟨hb, hc⟩ | ⟨j, hr, hc⟩)
      · refine ⟨cellIndex (vx + col) py, ?_, hc⟩
        have h2 : rowBit vx py b (col + 1) (col + (n + 1)) (cellIndex (vx + col) py) = false := by
          rw [Bool.eq_false_iff]
          exact fun hr => (hs _).2 hr rfl
        rw [(hs _).1, h2, hb]
        simp
      · rw [cell_drawBit _ _ _ _ (cellIndex_lt _ _)] at hc
        have hne := (hs j).2 hr
        simp only [hne, decide_false, Bool.and_false, Bool.xor_false] at hc
        refine ⟨j, ?_, hc⟩
        rw [(hs j).1, hr]
        simp [hne]
    · rintro ⟨j, hr, hc⟩
      by_cases hj : j = cellIndex (vx + col) py
      · left
        subst hj
        have h2 : rowBit vx py b (col + 1) (col + (n + 1)) (cellIndex (vx + col) py) = false := by
          rw [Bool.eq_false_iff]
          exact fun hr => (hs _).2 hr rfl
        rw [(hs _).1, h2] at hr
        simpa [hc] using hr
      · right
        refine ⟨j, ?_, ?_⟩
        · rw [(hs j).1] at hr
          simpa [hj] using hr
        · rw [cell_drawBit _ _ _ _ (cellIndex_lt _ _)]
          simp [hj, hc]

/-- The bit of a whole sprite, its rows given top first, that falls on cell `j` (R151). -/
def spriteOn (vx vy : Nat) (bs : List Byte) (j : Nat) : Bool :=
  decide ((j / 64 + 32 - vy % 32) % 32 < bs.length) &&
    rowBit vx (j / 64) (bs.getD ((j / 64 + 32 - vy % 32) % 32) 0#8) 0 8 j

/-- The first row of a sprite and the rows after it fall on different screen rows (R151 (d)). -/
theorem spriteOn_cons (vx vy : Nat) (b : Byte) (bs : List Byte) (j : Nat) (hl : bs.length < 32) :
    spriteOn vx vy (b :: bs) j = (rowBit vx vy b 0 8 j ^^ spriteOn vx (vy + 1) bs j) ∧
    (rowBit vx vy b 0 8 j = true → spriteOn vx (vy + 1) bs j = false) := by
  by_cases hj : j < 2048
  · by_cases h0 : (j / 64 + 32 - vy % 32) % 32 = 0
    · have hrow : j / 64 = vy % 32 := by omega
      have h1 : (j / 64 + 32 - (vy + 1) % 32) % 32 = 31 := by omega
      have hz : spriteOn vx (vy + 1) bs j = false := by
        rw [spriteOn, h1, decide_eq_false (by omega), Bool.false_and]
      refine ⟨?_, fun _ => hz⟩
      rw [hz, Bool.xor_false, spriteOn, h0, List.length_cons, decide_eq_true (by omega), Bool.true_and,
        List.getD_cons_zero]
      simp only [rowBit, hrow, Nat.mod_mod]
    · have hrow : j / 64 ≠ vy % 32 := by omega
      have h1 : (j / 64 + 32 - vy % 32) % 32 = (j / 64 + 32 - (vy + 1) % 32) % 32 + 1 := by omega
      have hr : rowBit vx vy b 0 8 j = false := by simp [rowBit, hrow]
      refine ⟨?_, fun h => absurd h (by simp [hr])⟩
      rw [hr, Bool.false_xor, spriteOn, spriteOn, h1, List.length_cons, List.getD_cons_succ]
      congr 1
      rw [decide_eq_decide]
      omega
  · have hr : ∀ (v : Nat) (y : Nat) (q : Byte), rowBit v y q 0 8 j = false := by
      intro v y q
      simp [rowBit, hj]
    simp [spriteOn, hr]

/-- A WHOLE SPRITE, up to 32 rows: every cell is its old value XOR the sprite bit on it (R151). -/
theorem cell_drawRows (vx vy : Nat) (bs : List Byte) (c : Canvas) (hl : bs.length ≤ 32) (j : Nat) :
    Framebuffer.cell (drawRows vx vy bs c).fb j = (Framebuffer.cell c.fb j ^^ spriteOn vx vy bs j) := by
  induction bs generalizing vy c with
  | nil => simp [drawRows, spriteOn]
  | cons b bs ih =>
    simp only [List.length_cons] at hl
    rw [drawRows, ih (vy + 1) _ (by omega), drawRow, cell_drawBits _ _ _ _ _ _ (by omega),
      (spriteOn_cons vx vy b bs j (by omega)).1, Bool.xor_assoc]

/-- The collision of a whole sprite: a cell that was 1 has a 1 bit of the sprite on it (R151). -/
theorem collision_drawRows (vx vy : Nat) (bs : List Byte) (c : Canvas) (hl : bs.length ≤ 32) :
    (drawRows vx vy bs c).collision = true ↔
      c.collision = true ∨ ∃ j, spriteOn vx vy bs j = true ∧ Framebuffer.cell c.fb j = true := by
  induction bs generalizing vy c with
  | nil => simp [drawRows, spriteOn]
  | cons b bs ih =>
    simp only [List.length_cons] at hl
    have hs := fun j => spriteOn_cons vx vy b bs j (by omega)
    rw [drawRows, ih (vy + 1) _ (by omega), drawRow, collision_drawBits _ _ _ _ _ _ (by omega)]
    simp only [cell_drawBits _ _ _ _ _ _ (show 0 + 8 ≤ 8 by omega), or_assoc, Nat.zero_add]
    refine or_congr Iff.rfl ⟨?_, ?_⟩
    · rintro (⟨j, hr, hc⟩ | ⟨j, hr, hc⟩)
      · refine ⟨j, ?_, hc⟩
        rw [(hs j).1, hr, (hs j).2 hr]
        rfl
      · have hz : rowBit vx vy b 0 8 j = false := by
          rw [Bool.eq_false_iff]
          intro h
          rw [(hs j).2 h] at hr
          cases hr
        rw [hz, Bool.xor_false] at hc
        refine ⟨j, ?_, hc⟩
        rw [(hs j).1, hz, hr]
        rfl
    · rintro ⟨j, hr, hc⟩
      by_cases h : rowBit vx vy b 0 8 j = true
      · exact .inl ⟨j, h, hc⟩
      · rw [Bool.not_eq_true] at h
        rw [(hs j).1, h, Bool.false_xor] at hr
        exact .inr ⟨j, hr, by rw [h, Bool.xor_false]; exact hc⟩

/-- The sprite bit of the claims is the one the engine draws from memory (R151). -/
theorem spriteOn_load (s : State) (base n vx vy px py : Nat) (hx : px < 64) (hy : py < 32) :
    spriteOn vx vy (s.mem.load base n) (py * 64 + px) = Safety.spriteBit s base n vx vy px py := by
  have hd : (py * 64 + px) / 64 = py := by omega
  have hm : (py * 64 + px) % 64 = px := by omega
  simp only [spriteOn, Safety.spriteBit, rowBit, hd, hm, Memory.length_load, Nat.mod_eq_of_lt hy, decide_true,
    Nat.zero_le]
  rw [decide_eq_true (show py * 64 + px < 2048 by omega), Bool.true_and]
  by_cases hr : (py + 32 - vy % 32) % 32 < n
  · rw [Memory.getD_load _ _ _ _ hr, decide_eq_true hr]
    simp [State.readByte]
  · rw [decide_eq_false hr]
    simp

end Sys2Proof.Machine
end

