-- ==== Sys2Proof/Laws/Frames.lean ====
section
/-! SUPPORT. How a frame is shown: field by field, from equal fields; and the frames of the shared moves. -/

namespace Sys2Proof.Safety

open Sys2Proof.Machine

/-- A frame from the fields: what reads memory, the framebuffer or the keypad follows from equal fields. -/
theorem frame_of_fields {regs : List Reg} {parts : List Part} {s t : State}
    (hv : ∀ r, r ∉ regs → t.getV r = s.getV r)
    (hi : Part.index ∉ parts → t.i = s.i)
    (hs : Part.stack ∉ parts → t.sp = s.sp ∧ t.stack = s.stack)
    (hd : Part.delay ∉ parts → t.dt = s.dt) (hst : Part.sound ∉ parts → t.st = s.st)
    (hm : Part.memory ∉ parts → t.mem = s.mem) (hf : Part.framebuffer ∉ parts → t.fb = s.fb)
    (hk : Part.keypad ∉ parts → t.key = s.key) (hw : Part.drawFlag ∉ parts → t.shouldDraw = s.shouldDraw)
    (hx : Part.waiting ∉ parts → t.mode = s.mode ∧ t.waitX = s.waitX)
    (hr : Part.draws ∉ parts → t.draws = s.draws) : Frame regs parts s t := by
  refine ⟨hv, fun p hp => ?_⟩
  cases p with
  | index => exact hi hp
  | stack => exact hs hp
  | delay => exact hd hp
  | sound => exact hst hp
  | memory => exact fun a => by rw [State.readByte, State.readByte, hm hp]
  | framebuffer => exact fun idx => by rw [State.cell, State.cell, hf hp]
  | keypad => exact fun k => by simp only [State.keyAt, hk hp]
  | drawFlag => exact hw hp
  | waiting => exact hx hp
  | draws => exact hr hp

/-- Moving `PC` changes nothing else. -/
theorem frame_setPc (s : State) (w : Word) : Frame [] [] s (s.setPc w) := by
  apply frame_of_fields <;> intros <;> simp

/-- A register written and `PC` moved on. -/
theorem frame_setV (s : State) (x : Reg) (b : Byte) : Frame [x] [] s (s.setV x b).advance := by
  apply frame_of_fields <;> intros <;> simp_all [State.getV_setV]

/-- A result and a flag written and `PC` moved on. -/
theorem frame_writeWithFlag (s : State) (x : Reg) (b : Byte) (c : Bool) :
    Frame [x, regF] [] s (s.writeWithFlag x b c).advance := by
  apply frame_of_fields <;> intros <;> simp_all [State.getV_writeWithFlag]

/-- There is no cell from 2048 on: it reads as 0 (R17). -/
theorem cell_outside (fb : Framebuffer) (idx : Nat) (h : 2048 ≤ idx) : Framebuffer.cell fb idx = false := by
  have hn : fb[idx / 64]? = none := Vector.getElem?_eq_none (by omega)
  simp [Framebuffer.cell, Framebuffer.row, hn]

end Sys2Proof.Safety
end

