-- ==== Sys2Proof/Laws/Operands.lean ====
section
/-! SUPPORT. The operand forms: block transfers of registers, digits, the index arithmetic. -/

namespace Sys2Proof.Machine

/-- Register `k` is byte `k` of what Fx55 stores (R144). -/
theorem State.getD_regsUpTo (s : State) (x r : Reg) (h : r.toNat ≤ x.toNat) (d : Byte) :
    (s.regsUpTo x).getD r.toNat d = s.getV r := by
  have hr := r.isLt
  simp only [State.regsUpTo, State.getV]
  rw [List.getD_eq_getElem?_getD, List.getElem?_take_of_lt (by omega), List.getElem?_eq_getElem (by simpa using hr)]
  simp

/-- Registers from number `r` on take the bytes of the list, the others keep theirs (R145). -/
theorem getElem_fillRegs (v : Vector Byte 16) (r : Nat) (bs : List Byte) (k : Nat) (hk : k < 16) :
    (fillRegs v r bs)[k] = if r ≤ k ∧ k < r + bs.length then bs.getD (k - r) 0#8 else v[k] := by
  induction bs generalizing v r with
  | nil =>
    rw [if_neg (by simp only [List.length_nil]; omega)]
    rfl
  | cons b bs ih =>
    rw [fillRegs, ih, Vector.getElem_setIfInBounds]
    simp only [List.length_cons]
    by_cases h1 : r = k
    · subst h1
      rw [if_neg (by omega), if_pos rfl, if_pos (by omega), Nat.sub_self]
      rfl
    · by_cases h2 : r + 1 ≤ k ∧ k < r + 1 + bs.length
      · rw [if_pos h2, if_pos (by omega), show k - r = (k - (r + 1)) + 1 by omega, List.getD_cons_succ]
      · rw [if_neg h2, if_neg h1, if_neg (by omega)]

/-- `(I + V[x]) mod 65536` (R141). -/
theorem toNat_indexPlus (i : Word) (b : Byte) : (indexPlus i b).toNat = (i.toNat + b.toNat) % 65536 := by
  simp only [indexPlus, BitVec.toNat_add, BitVec.toNat_setWidth]
  have := b.isLt
  omega

/-- `V[x] * 5`, at most 1275 (R142). -/
theorem toNat_glyphAddr (b : Byte) : (glyphAddr b).toNat = b.toNat * 5 := by
  simp only [glyphAddr, Config.fontBase, BitVec.toNat_add, BitVec.toNat_mul, BitVec.toNat_setWidth, BitVec.toNat_ofNat]
  have := b.isLt
  omega

/-- The low nibble of the register (R160). -/
theorem toNat_keyIndex (b : Byte) : (keyIndex b).toNat = b.toNat % 16 := by
  simp only [keyIndex, BitVec.extractLsb'_toNat, Nat.shiftRight_zero]

end Sys2Proof.Machine
end

