-- ==== Sys2Proof/Laws/PerInstr.lean ====
section
/-! SUPPORT. One lemma for each instruction: its encoded word matches a row of the opcode map, and that row
builds the instruction again from the word's fields. -/

namespace Sys2Proof.Laws.EncodedRow

/-- The word of `i` matches a row of R65 that builds `i` from the word's fields. -/
def Statement (i : Instr) : Prop :=
  ∃ r ∈ opcodeTable, rowMatches r (encode i) = true ∧ r.build (fieldsOf (encode i)) = i

/-- A row given by its place in the map serves. -/
theorem of_row {i : Instr} (k : Nat) (r : Row) (hk : opcodeTable[k]? = some r)
    (hm : rowMatches r (encode i) = true) (hb : r.build (fieldsOf (encode i)) = i) : Statement i :=
  ⟨r, List.mem_of_getElem? hk, hm, hb⟩

theorem cls : Statement .cls :=
  of_row 0 _ rfl rfl rfl

theorem ret : Statement .ret :=
  of_row 1 _ rfl rfl rfl

theorem sys (nnn : Addr) : Statement (.sys nnn) :=
  of_row 2 _ rfl (by simp [encode]) (by simp [encode])

theorem jp (nnn : Addr) : Statement (.jp nnn) :=
  of_row 3 _ rfl (by simp [encode]) (by simp [encode])

theorem call (nnn : Addr) : Statement (.call nnn) :=
  of_row 4 _ rfl (by simp [encode]) (by simp [encode])

theorem seImm (x : Reg) (kk : Byte) : Statement (.seImm x kk) :=
  of_row 5 _ rfl (by simp [encode]) (by simp [encode])

theorem sneImm (x : Reg) (kk : Byte) : Statement (.sneImm x kk) :=
  of_row 6 _ rfl (by simp [encode]) (by simp [encode])

theorem seReg (x : Reg) (y : Reg) : Statement (.seReg x y) :=
  of_row 7 _ rfl (by simp [encode]) (by simp [encode])

theorem ldImm (x : Reg) (kk : Byte) : Statement (.ldImm x kk) :=
  of_row 8 _ rfl (by simp [encode]) (by simp [encode])

theorem addImm (x : Reg) (kk : Byte) : Statement (.addImm x kk) :=
  of_row 9 _ rfl (by simp [encode]) (by simp [encode])

theorem ldReg (x : Reg) (y : Reg) : Statement (.ldReg x y) :=
  of_row 10 _ rfl (by simp [encode]) (by simp [encode])

theorem orReg (x : Reg) (y : Reg) : Statement (.orReg x y) :=
  of_row 11 _ rfl (by simp [encode]) (by simp [encode])

theorem andReg (x : Reg) (y : Reg) : Statement (.andReg x y) :=
  of_row 12 _ rfl (by simp [encode]) (by simp [encode])

theorem xorReg (x : Reg) (y : Reg) : Statement (.xorReg x y) :=
  of_row 13 _ rfl (by simp [encode]) (by simp [encode])

theorem addReg (x : Reg) (y : Reg) : Statement (.addReg x y) :=
  of_row 14 _ rfl (by simp [encode]) (by simp [encode])

theorem sub (x : Reg) (y : Reg) : Statement (.sub x y) :=
  of_row 15 _ rfl (by simp [encode]) (by simp [encode])

theorem shr (x : Reg) (y : Reg) : Statement (.shr x y) :=
  of_row 16 _ rfl (by simp [encode]) (by simp [encode])

theorem subn (x : Reg) (y : Reg) : Statement (.subn x y) :=
  of_row 17 _ rfl (by simp [encode]) (by simp [encode])

theorem shl (x : Reg) (y : Reg) : Statement (.shl x y) :=
  of_row 18 _ rfl (by simp [encode]) (by simp [encode])

theorem sneReg (x : Reg) (y : Reg) : Statement (.sneReg x y) :=
  of_row 19 _ rfl (by simp [encode]) (by simp [encode])

theorem ldI (nnn : Addr) : Statement (.ldI nnn) :=
  of_row 20 _ rfl (by simp [encode]) (by simp [encode])

theorem jpV0 (nnn : Addr) : Statement (.jpV0 nnn) :=
  of_row 21 _ rfl (by simp [encode]) (by simp [encode])

theorem rnd (x : Reg) (kk : Byte) : Statement (.rnd x kk) :=
  of_row 22 _ rfl (by simp [encode]) (by simp [encode])

theorem drw (x : Reg) (y : Reg) (n : Nibble) : Statement (.drw x y n) :=
  of_row 23 _ rfl (by simp [encode]) (by simp [encode])

theorem skp (x : Reg) : Statement (.skp x) :=
  of_row 24 _ rfl (by simp [encode]) (by simp [encode])

theorem sknp (x : Reg) : Statement (.sknp x) :=
  of_row 25 _ rfl (by simp [encode]) (by simp [encode])

theorem ldVxDt (x : Reg) : Statement (.ldVxDt x) :=
  of_row 26 _ rfl (by simp [encode]) (by simp [encode])

theorem ldVxK (x : Reg) : Statement (.ldVxK x) :=
  of_row 27 _ rfl (by simp [encode]) (by simp [encode])

theorem ldDtVx (x : Reg) : Statement (.ldDtVx x) :=
  of_row 28 _ rfl (by simp [encode]) (by simp [encode])

theorem ldStVx (x : Reg) : Statement (.ldStVx x) :=
  of_row 29 _ rfl (by simp [encode]) (by simp [encode])

theorem addI (x : Reg) : Statement (.addI x) :=
  of_row 30 _ rfl (by simp [encode]) (by simp [encode])

theorem ldF (x : Reg) : Statement (.ldF x) :=
  of_row 31 _ rfl (by simp [encode]) (by simp [encode])

theorem ldB (x : Reg) : Statement (.ldB x) :=
  of_row 32 _ rfl (by simp [encode]) (by simp [encode])

theorem stRegs (x : Reg) : Statement (.stRegs x) :=
  of_row 33 _ rfl (by simp [encode]) (by simp [encode])

theorem ldRegs (x : Reg) : Statement (.ldRegs x) :=
  of_row 34 _ rfl (by simp [encode]) (by simp [encode])

end Sys2Proof.Laws.EncodedRow
end

