-- ==== Sys2Proof/Laws/Transactions.lean ====
section
/-! SUPPORT. What each host transaction can do, said once (60_exceptions.md R186 to R192), and the font a
reset leaves. -/

namespace Sys2Proof.Machine

/-- The sound-active signal as the spec writes it: `ST > 0` (R189). -/
theorem State.soundActive_eq (s : State) : s.soundActive = decide (0 < s.st.toNat) := by
  simp only [State.soundActive, decide_eq_decide, ne_eq, ← BitVec.toNat_inj]
  simp only [BitVec.toNat_ofNat]
  omega

/-- All `load_program` can do (R176, R190). -/
theorem loadProgram_cases (bytes : List Byte) (s : State) :
    (bytes.length ≤ 3584 ∧ loadProgram bytes s = (s.setMem (s.mem.store 0x200 bytes), .done)) ∨
    (3584 < bytes.length ∧ loadProgram bytes s = (s, .error .romTooLarge)) := by
  have hm : Config.maxProgram = 3584 := rfl
  by_cases h : 3584 < bytes.length
  · exact .inr ⟨h, by simp only [loadProgram, hm]; exact if_pos h⟩
  · exact .inl ⟨by omega, by simp only [loadProgram, hm]; exact if_neg h⟩

/-- All `set_key` can do (R187): the key alone, or a press that ends a wait. -/
theorem setKey_cases (k : Nibble) (pressed : Bool) (s : State) :
    (pressed = true ∧ s.mode = .awaitingKey ∧
      setKey k pressed s = (((s.setKeyAt k true).setV s.waitX (k.setWidth 8)).advance).leaveWait) ∨
    ((pressed = false ∨ s.mode = .running) ∧ setKey k pressed s = s.setKeyAt k pressed) := by
  unfold setKey
  cases pressed <;> cases hm : s.mode <;> simp

/-- The errors a cycle raises: an instruction's own, the fetch's, or the dispatch's (R170, R178). -/
theorem cycle_fault {p : Params} {s : State} {f : Fault} (h : cycle p s = .fault f) :
    (∃ i, s.nextInstr = .ok i ∧ exec i s = .fault f) ∨ f = .outOfBounds s.pc.toNat ∨
      ∃ w, f = .invalidOpcode w := by
  unfold cycle at h
  split at h
  · cases h
  · rcases State.nextInstr_cases s with ⟨i, -, -, hn⟩ | ⟨-, hn⟩ | ⟨w, -, -, -, hn⟩
    · rw [hn] at h
      simp only at h
      cases he : exec i s with
      | next t => rw [he] at h; cases h
      | fault g => rw [he] at h; cases h; exact .inl ⟨i, hn, he⟩
      | refused r => rw [he] at h; cases h
    · rw [hn] at h
      cases h
      exact .inr (.inl rfl)
    · rw [hn] at h
      cases h
      exact .inr (.inr ⟨w, rfl⟩)

/-! ### The font -/

theorem length_flatMap_glyphs (l : List (Vector Byte 5)) : (l.flatMap fun g => g.toList).length = 5 * l.length := by
  induction l with
  | nil => rfl
  | cons g l ih => simp only [List.flatMap_cons, List.length_append, Vector.length_toList, ih, List.length_cons]; omega

/-- 16 glyphs of 5 bytes (R24). -/
@[simp] theorem length_fontBytes (font : Font) : (fontBytes font).length = 80 := by
  rw [fontBytes, length_flatMap_glyphs, Vector.length_toList]

theorem getD_flatMap_glyphs (l : List (Vector Byte 5)) (d c : Nat) (hd : d < l.length) (hc : c < 5) :
    (l.flatMap fun g => g.toList).getD (5 * d + c) 0#8 = l[d][c] := by
  induction l generalizing d with
  | nil => simp at hd
  | cons g l ih =>
    rw [List.flatMap_cons]
    cases d with
    | zero =>
      rw [List.getD_append _ _ _ _ (by simp; omega)]
      simp [List.getD_eq_getElem?_getD, hc]
    | succ d =>
      rw [List.getD_append_right _ _ _ _ (by simp; omega), Vector.length_toList,
        show 5 * (d + 1) + c - 5 = 5 * d + c by omega]
      exact ih d (by simpa using hd)

/-- Byte `c` of the glyph of digit `d` lies at `5*d + c` (R24). -/
theorem getD_fontBytes (font : Font) (d c : Nat) (hd : d < 16) (hc : c < 5) :
    (fontBytes font).getD (5 * d + c) 0#8 = font[d][c] := by
  have h := getD_flatMap_glyphs font.toList d c (by simpa using hd) hc
  simpa [fontBytes] using h

/-- Above the font the reset image is 0 (R23). -/
theorem resetByte_above (a : Nat) (h : 0x050 ≤ a) : resetByte a = 0#8 := by
  have hl := length_fontBytes defaultFont
  simp only [resetByte, Config.fontBase, Nat.sub_zero, List.getD_eq_getElem?_getD]
  rw [List.getElem?_eq_none (by omega)]
  rfl

end Sys2Proof.Machine
end

