-- ==== Sys2Proof/Laws/Words.lean ====
section
/-! SUPPORT. The words claims write as numbers (30_encoding.md R62, R65) are the words the encoder builds
from fields. -/

namespace Sys2Proof.Safety

theorem wordNNN_eq (m : Nibble) (nnn : Addr) : wordNNN m.toNat nnn = encodeNNN m nnn := by
  apply BitVec.eq_of_toNat_eq
  have := m.isLt
  have := nnn.isLt
  rw [wordNNN, encodeNNN, BitVec.toNat_append, ← Nat.shiftLeft_add_eq_or_of_lt nnn.isLt, Nat.shiftLeft_eq,
    BitVec.toNat_ofNat]
  omega

theorem wordXKK_eq (m : Nibble) (x : Reg) (kk : Byte) : wordXKK m.toNat x kk = encodeXKK m x kk := by
  apply BitVec.eq_of_toNat_eq
  have := m.isLt
  have := x.isLt
  have := kk.isLt
  rw [wordXKK, encodeXKK, BitVec.toNat_append, ← Nat.shiftLeft_add_eq_or_of_lt kk.isLt, Nat.shiftLeft_eq,
    BitVec.toNat_append, ← Nat.shiftLeft_add_eq_or_of_lt x.isLt, Nat.shiftLeft_eq, BitVec.toNat_ofNat]
  omega

theorem wordXYN_eq (m x y n : Nibble) : wordXYN m.toNat x y n.toNat = wordOfNibbles m x y n := by
  apply BitVec.eq_of_toNat_eq
  have := m.isLt
  have := x.isLt
  have := y.isLt
  have := n.isLt
  rw [wordXYN, wordOfNibbles, BitVec.toNat_append, ← Nat.shiftLeft_add_eq_or_of_lt n.isLt, Nat.shiftLeft_eq,
    BitVec.toNat_append, ← Nat.shiftLeft_add_eq_or_of_lt y.isLt, Nat.shiftLeft_eq, BitVec.toNat_append,
    ← Nat.shiftLeft_add_eq_or_of_lt x.isLt, Nat.shiftLeft_eq, BitVec.toNat_ofNat]
  omega

theorem wordX_eq (m x a b : Nibble) : wordX m.toNat x (16 * a.toNat + b.toNat) = wordOfNibbles m x a b := by
  rw [← wordXYN_eq]
  unfold wordX wordXYN
  congr 1
  omega

/-- A 12-bit address is fixed by its three nibbles (R7). -/
theorem addr_ext {nnn c : Addr} (h8 : nnn.extractLsb' 8 4 = c.extractLsb' 8 4)
    (h4 : nnn.extractLsb' 4 4 = c.extractLsb' 4 4) (h0 : nnn.extractLsb' 0 4 = c.extractLsb' 0 4) : nnn = c := by
  have e8 := congrArg BitVec.toNat h8
  have e4 := congrArg BitVec.toNat h4
  have e0 := congrArg BitVec.toNat h0
  simp only [BitVec.extractLsb'_toNat, Nat.shiftRight_eq_div_pow] at e8 e4 e0
  apply BitVec.eq_of_toNat_eq
  have := nnn.isLt
  have := c.isLt
  omega

end Sys2Proof.Safety
end

