-- ==== Sys2Proof/Tests/Slice0.lean ====
section
/-! SUPPORT. The model's own tests. Expected results are those of spec/95_test_vectors.md (the vector is named)
or are worked out by hand from the rule named. After them, for each statement with hypotheses, a witness that
meets the hypotheses, at the boundary of each clause. -/

namespace Sys2Proof.Tests

open Sys2Proof.Machine Sys2Proof.Safety

/-! ### Helpers -/

/-- The reset state with a word at 0x200, as the vectors start. -/
def start (w : Word) : State := State.reset.setMem (Memory.store [] 0x200 (bytesOfWord w))

/-- The same with the word at another address and `PC` there. -/
def startAt (a : Nat) (w : Word) : State :=
  (State.reset.setMem (Memory.store [] a (bytesOfWord w))).setPc (BitVec.ofNat 16 a)

/-- A byte of memory set by hand. -/
def poke (a : Nat) (b : Byte) (s : State) : State := s.setMem (s.mem.write a b)

/-- `stack` and `SP` set by hand: `k` entries, each `w`. -/
def withStack (w : Word) (k : Fin 17) (s : State) : State := s.setStack (Vector.replicate 16 w) k

/-- The answer is a next state of which the check holds. -/
def next (r : Result) (check : State → Bool) : Bool :=
  match r with
  | .next t => check t
  | .fault _ => false
  | .refused _ => false

/-- The answer is this fault. -/
def faults (r : Result) (f : Fault) : Bool :=
  match r with
  | .next _ => false
  | .fault g => g == f
  | .refused _ => false

/-- Exactly the cells listed hold 1. -/
def lit (cells : List Nat) (s : State) : Bool :=
  s.fb == cells.foldl (fun fb idx => fb.set! (idx / 64) ((fb[idx / 64]?.getD 0#64) ||| BitVec.twoPow 64 (idx % 64)))
    clearFramebuffer

/-- A cycle with `TIMER_TICK_IN_STEP` false. -/
def stepNoTick (s : State) : Result := cycle ⟨defaultFont, false⟩ s

/-! ### WellFormed: its one check refuses an ill-formed term for each of its two targets -/

theorem test_wf_refuses_sys_0E0 : (Instr.sys 0x0E0#12).wellFormed = false := by decide
theorem test_wf_refuses_sys_0EE : (Instr.sys 0x0EE#12).wellFormed = false := by decide
theorem test_wf_accepts_sys_0E1 : (Instr.sys 0x0E1#12).wellFormed = true := by decide

/-! ### Decode: a word written out from its pattern in R65 for every constructor -/

theorem test_decode_fixed : decode 0x00E0#16 = .ok .cls ∧ decode 0x00EE#16 = .ok .ret := by decide
theorem test_decode_jumps :
    decode 0x00E1#16 = .ok (.sys 0x0E1#12) ∧ decode 0x1234#16 = .ok (.jp 0x234#12) ∧
    decode 0x2210#16 = .ok (.call 0x210#12) ∧ decode 0xBFFF#16 = .ok (.jpV0 0xFFF#12) := by decide
theorem test_decode_skips :
    decode 0x3F01#16 = .ok (.seImm 15#4 0x01#8) ∧ decode 0x4207#16 = .ok (.sneImm 2#4 0x07#8) ∧
    decode 0x5340#16 = .ok (.seReg 3#4 4#4) ∧ decode 0x9340#16 = .ok (.sneReg 3#4 4#4) := by decide
theorem test_decode_immediate :
    decode 0x6A2F#16 = .ok (.ldImm 10#4 0x2F#8) ∧ decode 0x71FF#16 = .ok (.addImm 1#4 0xFF#8) ∧
    decode 0xC10F#16 = .ok (.rnd 1#4 0x0F#8) := by decide
theorem test_decode_alu_low :
    decode 0x8120#16 = .ok (.ldReg 1#4 2#4) ∧ decode 0x8121#16 = .ok (.orReg 1#4 2#4) ∧
    decode 0x8122#16 = .ok (.andReg 1#4 2#4) ∧ decode 0x8123#16 = .ok (.xorReg 1#4 2#4) := by decide
theorem test_decode_alu_high :
    decode 0x8AB4#16 = .ok (.addReg 10#4 11#4) ∧ decode 0x8355#16 = .ok (.sub 3#4 5#4) ∧
    decode 0x8AB6#16 = .ok (.shr 10#4 11#4) ∧ decode 0x8127#16 = .ok (.subn 1#4 2#4) ∧
    decode 0x810E#16 = .ok (.shl 1#4 0#4) := by decide
theorem test_decode_index :
    decode 0xA2F0#16 = .ok (.ldI 0x2F0#12) ∧ decode 0xF21E#16 = .ok (.addI 2#4) ∧
    decode 0xF329#16 = .ok (.ldF 3#4) := by decide
theorem test_decode_memory :
    decode 0xFB33#16 = .ok (.ldB 11#4) ∧ decode 0xF255#16 = .ok (.stRegs 2#4) ∧
    decode 0xF165#16 = .ok (.ldRegs 1#4) := by decide
theorem test_decode_display_keypad :
    decode 0xD123#16 = .ok (.drw 1#4 2#4 3#4) ∧ decode 0xE29E#16 = .ok (.skp 2#4) ∧
    decode 0xE2A1#16 = .ok (.sknp 2#4) := by decide
theorem test_decode_timers :
    decode 0xF307#16 = .ok (.ldVxDt 3#4) ∧ decode 0xF10A#16 = .ok (.ldVxK 1#4) ∧
    decode 0xF015#16 = .ok (.ldDtVx 0#4) ∧ decode 0xF018#16 = .ok (.ldStVx 0#4) := by decide

/-- T-DEC10 to T-DEC21 and T-DEC7. -/
theorem test_decode_illegal :
    [0x5001#16, 0x500F#16, 0x8008#16, 0x800F#16, 0x9001#16, 0xE000#16, 0xE09F#16, 0xE1A0#16, 0xF000#16, 0xF0FF#16,
      0xF175#16, 0xF056#16, 0xFFFF#16].all (fun w => decode w == .error (.invalidOpcode w) && illegalWord w) := by
  decide

theorem test_decode_short : decodeBytes [0x12#8] = .error .truncated ∧ decodeBytes [] = .error .truncated := by
  decide

/-- T-DEC1 through the opcode table's numbering of bits. -/
theorem test_decodeTableWord : decodeTableWord 16 0xD123 = some (.drw 1#4 2#4 3#4) := by decide
theorem test_withFetchWord : next (step (State.reset.withFetchWord 16 0x6A2F)) (fun t => t.getV 10#4 == 0x2F#8) := by
  decide

/-! ### Control transfer -/

/-- T-CF1: SYS jumps and pushes nothing. -/
theorem test_sys : next (step (start 0x0300#16)) (fun t => t.pc == 0x300#16 && t.sp == 0) := by decide
/-- T-CF2, T-CYC8: big-endian. -/
theorem test_jp : next (step (start 0x1234#16)) (fun t => t.pc == 0x234#16) := by decide
/-- T-CF4. -/
theorem test_call :
    next (step (startAt 0x204 0x2210#16)) (fun t => t.pc == 0x210#16 && t.sp == 1 && t.stack[0] == 0x206#16) := by
  decide
/-- T-CF8. -/
theorem test_call_overflow : faults (step (withStack 0#16 16 (start 0x2300#16))) .stackOverflow := by decide
/-- T-CF7, and the entry is kept. -/
theorem test_ret :
    next (step (withStack 0x206#16 1 (start 0x00EE#16)))
      (fun t => t.pc == 0x206#16 && t.sp == 0 && t.stack[0] == 0x206#16) := by decide
/-- T-CF5. -/
theorem test_ret_underflow : faults (step (start 0x00EE#16)) .stackUnderflow := by decide
/-- T-CF11 and T-CF12. -/
theorem test_seImm :
    next (step (start 0x3100#16)) (fun t => t.pc == 0x204#16) &&
    next (step ((start 0x3100#16).setV 1#4 1#8)) (fun t => t.pc == 0x202#16) := by decide
/-- T-CF14 and T-CF15. -/
theorem test_sneImm :
    next (step ((start 0x4207#16).setV 2#4 7#8)) (fun t => t.pc == 0x202#16) &&
    next (step ((start 0x4208#16).setV 2#4 7#8)) (fun t => t.pc == 0x204#16) := by decide
/-- T-CF16 and T-CF17. -/
theorem test_seReg :
    next (step (((start 0x5340#16).setV 3#4 9#8).setV 4#4 9#8)) (fun t => t.pc == 0x204#16) &&
    next (step (((start 0x5340#16).setV 3#4 9#8).setV 4#4 8#8)) (fun t => t.pc == 0x202#16) := by decide
/-- T-CF19 and T-CF20. -/
theorem test_sneReg :
    next (step (((start 0x9340#16).setV 3#4 9#8).setV 4#4 8#8)) (fun t => t.pc == 0x204#16) &&
    next (step (((start 0x9340#16).setV 3#4 9#8).setV 4#4 9#8)) (fun t => t.pc == 0x202#16) := by decide
/-- T-CF23: never V[x]. -/
theorem test_jpV0 :
    next (step (((start 0xB300#16).setV 0#4 4#8).setV 3#4 0x55#8)) (fun t => t.pc == 0x304#16) := by decide
/-- T-CF24: not reduced. -/
theorem test_jpV0_top :
    next (step ((start 0xBFFF#16).setV 0#4 0xFF#8))
      (fun t => t.pc == 0x10FE#16 && faults (step t) (.outOfBounds 4350)) := by decide
/-- T-CF27: a skip from the last word. -/
theorem test_skip_top :
    next (step (startAt 4094 0x3000#16)) (fun t => t.pc == 4098#16 && faults (step t) (.outOfBounds 4098)) := by
  decide

/-! ### Registers and arithmetic -/

/-- T-ALU1. -/
theorem test_ldImm : next (step (start 0x6A2F#16)) (fun t => t.getV 10#4 == 0x2F#8 && t.pc == 0x202#16) := by decide
/-- T-ALU4: no carry flag. -/
theorem test_addImm :
    next (step ((start 0x7101#16).setV 1#4 255#8)) (fun t => t.getV 1#4 == 0#8 && t.getV 15#4 == 0#8) := by decide
/-- T-ALU7. -/
theorem test_ldReg :
    next (step ((start 0x8120#16).setV 2#4 0x33#8)) (fun t => t.getV 1#4 == 0x33#8 && t.getV 2#4 == 0x33#8) := by
  decide
/-- T-ALU8: VF is not reset. -/
theorem test_or :
    next (step ((((start 0x8121#16).setV 1#4 0xF0#8).setV 2#4 0x3C#8).setV 15#4 1#8))
      (fun t => t.getV 1#4 == 0xFC#8 && t.getV 15#4 == 1#8) := by decide
/-- T-ALU9. -/
theorem test_and :
    next (step (((start 0x8122#16).setV 1#4 0xF0#8).setV 2#4 0x3C#8)) (fun t => t.getV 1#4 == 0x30#8) := by decide
/-- T-ALU10. -/
theorem test_xor :
    next (step (((start 0x8123#16).setV 1#4 0xF0#8).setV 2#4 0x3C#8)) (fun t => t.getV 1#4 == 0xCC#8) := by decide
/-- S2. -/
theorem test_addReg :
    next (step (((start 0x8454#16).setV 4#4 200#8).setV 5#4 200#8))
      (fun t => t.getV 4#4 == 144#8 && t.getV 5#4 == 200#8 && t.getV 15#4 == 1#8) := by decide
/-- T-ALU17: the flag wins over the sum 44. -/
theorem test_addReg_vf :
    next (step (((start 0x8F14#16).setV 15#4 200#8).setV 1#4 100#8)) (fun t => t.getV 15#4 == 1#8) := by decide
/-- S3, the second case. -/
theorem test_sub :
    next (step (((start 0x8355#16).setV 3#4 25#8).setV 5#4 100#8))
      (fun t => t.getV 3#4 == 181#8 && t.getV 15#4 == 0#8) := by decide
/-- T-ALU24: VF as the subtrahend. -/
theorem test_sub_vf :
    next (step (((start 0x81F5#16).setV 1#4 9#8).setV 15#4 1#8))
      (fun t => t.getV 1#4 == 8#8 && t.getV 15#4 == 1#8) := by decide
/-- T-ALU31: V[y] is not used. -/
theorem test_shr :
    next (step (((start 0x8126#16).setV 1#4 5#8).setV 2#4 0xAA#8))
      (fun t => t.getV 1#4 == 2#8 && t.getV 2#4 == 0xAA#8 && t.getV 15#4 == 1#8) := by decide
/-- T-ALU33: the flag of the old value. -/
theorem test_shr_vf : next (step ((start 0x8F06#16).setV 15#4 2#8)) (fun t => t.getV 15#4 == 0#8) := by decide
/-- T-ALU34. -/
theorem test_subn :
    next (step (((start 0x8127#16).setV 1#4 10#8).setV 2#4 3#8))
      (fun t => t.getV 1#4 == 249#8 && t.getV 15#4 == 0#8) := by decide
/-- T-ALU38: 9 >= 5. -/
theorem test_subn_vf :
    next (step (((start 0x8F17#16).setV 15#4 5#8).setV 1#4 9#8)) (fun t => t.getV 15#4 == 1#8) := by decide
/-- T-ALU39. -/
theorem test_shl :
    next (step ((start 0x810E#16).setV 1#4 0x81#8)) (fun t => t.getV 1#4 == 0x02#8 && t.getV 15#4 == 1#8) := by
  decide
/-- T-ALU46. -/
theorem test_shl_vf : next (step ((start 0x8F0E#16).setV 15#4 0x7F#8)) (fun t => t.getV 15#4 == 0#8) := by decide
/-- T-ALU47: the draw 0xA7 under the mask 0x0F. -/
theorem test_rnd_mask : (rndWith 0xA7#8 1#4 0x0F#8 (start 0xC10F#16)).getV 1#4 = 0x07#8 := by decide
/-- T-ALU48: the mask 0 leaves 0 whatever the draw. -/
theorem test_rnd_zero : ∀ r : Byte, (rndWith r 1#4 0x00#8 (start 0xC100#16)).getV 1#4 = 0#8 := by
  intro r
  simp [rndWith, State.getV, State.setV, State.countDraw, State.advance, State.setPc]

/-! ### Index register and memory -/

/-- T-IM1. -/
theorem test_ldI : next (step (start 0xA2F0#16)) (fun t => t.i == 0x02F0#16 && t.pc == 0x202#16) := by decide
/-- T-IM4: the wrap of I, VF kept. -/
theorem test_addI :
    next (step ((((start 0xF21E#16).setI 0xFFFE#16).setV 2#4 5#8).setV 15#4 9#8))
      (fun t => t.i == 0x0003#16 && t.getV 15#4 == 9#8) := by decide
/-- T-IM5. -/
theorem test_ldF : next (step ((start 0xF329#16).setV 3#4 0x0A#8)) (fun t => t.i == 50#16) := by decide
/-- T-IM8: not masked. -/
theorem test_ldF_above_15 : next (step ((start 0xF329#16).setV 3#4 0x1A#8)) (fun t => t.i == 130#16) := by decide
/-- S4. -/
theorem test_ldB :
    next (step (((start 0xFB33#16).setV 11#4 123#8).setI 100#16))
      (fun t => t.readByte 100 == 1#8 && t.readByte 101 == 2#8 && t.readByte 102 == 3#8 && t.readByte 103 == 0#8 &&
        t.i == 100#16 && t.pc == 0x202#16) := by decide
/-- T-IM12. -/
theorem test_ldB_out :
    faults (step (((start 0xF033#16).setV 0#4 255#8).setI 4094#16)) (.outOfBounds 4096) := by decide
/-- T-IM13. -/
theorem test_stRegs :
    next (step (((((((start 0xF255#16).setI 0x300#16).setV 0#4 1#8).setV 1#4 2#8).setV 2#4 3#8).setV 3#4 4#8)))
      (fun t => t.readByte 0x300 == 1#8 && t.readByte 0x301 == 2#8 && t.readByte 0x302 == 3#8 &&
        t.readByte 0x303 == 0#8 && t.i == 0x300#16) := by decide
/-- T-IM16. -/
theorem test_stRegs_out : faults (step ((start 0xFF55#16).setI 4090#16)) (.outOfBounds 4096) := by decide
/-- T-IM21: the font table, four of its bytes. -/
theorem test_ldRegs :
    next (step (start 0xFF65#16))
      (fun t => t.getV 0#4 == 0xF0#8 && t.getV 5#4 == 0x20#8 && t.getV 9#4 == 0x70#8 && t.getV 15#4 == 0xF0#8) := by
  decide
/-- T-IM20. -/
theorem test_ldRegs_out : faults (step ((start 0xF065#16).setI 0x1003#16)) (.outOfBounds 4099) := by decide

/-! ### Display -/

/-- T-DSP1. -/
theorem test_cls :
    next (step (((start 0x00E0#16).setFb (Vector.replicate 32 0x8000000000000001#64)).setV 15#4 1#8))
      (fun t => lit [] t && !t.shouldDraw && t.getV 15#4 == 1#8 && t.pc == 0x202#16) := by decide
/-- S6. -/
theorem test_drw_wrap :
    next (step (poke 0x300 0xFF#8 (((((start 0xD011#16).setV 0#4 60#8).setV 1#4 5#8).setI 0x300#16))))
      (fun t => lit [320, 321, 322, 323, 380, 381, 382, 383] t && t.getV 15#4 == 0#8 && t.shouldDraw) := by decide
/-- T-DSP11, its first and third steps: cells 2 and 3 go from 1 to 0. -/
theorem test_drw_collision :
    next (exec (.drw 0#4 1#4 1#4) (poke 0x301 0x3C#8 (poke 0x300 0xF0#8 (State.reset.setI 0x300#16)))) (fun t =>
      lit [0, 1, 2, 3] t && next (exec (.drw 0#4 1#4 1#4) (t.setI 0x301#16)) (fun u =>
        lit [0, 1, 4, 5] u && u.getV 15#4 == 1#8)) := by decide

/-! ### Keypad and timers -/

/-- T-KT5 and T-KT2: the low nibble selects. -/
theorem test_skp :
    next (step (((start 0xE29E#16).setV 2#4 0x17#8).setKeyAt 7#4 true)) (fun t => t.pc == 0x204#16) &&
    next (step ((start 0xE29E#16).setV 2#4 7#8)) (fun t => t.pc == 0x202#16) := by decide
/-- T-KT3 and T-KT4. -/
theorem test_sknp :
    next (step ((start 0xE2A1#16).setV 2#4 7#8)) (fun t => t.pc == 0x204#16) &&
    next (step (((start 0xE2A1#16).setV 2#4 7#8).setKeyAt 7#4 true)) (fun t => t.pc == 0x202#16) := by decide
/-- T-KT7 and T-KT8. -/
theorem test_ldVxDt :
    next (step ((start 0xF307#16).setDt 0x2A#8)) (fun t => t.getV 3#4 == 0x2A#8 && t.dt == 0x29#8) &&
    next (stepNoTick ((start 0xF307#16).setDt 0x2A#8)) (fun t => t.getV 3#4 == 0x2A#8 && t.dt == 0x2A#8) := by decide
/-- T-KT10 and T-KT11. -/
theorem test_ldDtVx :
    next (step ((start 0xF015#16).setV 0#4 3#8)) (fun t => t.dt == 2#8) &&
    next (stepNoTick ((start 0xF015#16).setV 0#4 3#8)) (fun t => t.dt == 3#8) := by decide
/-- T-KT15 and T-KT14: the outcome's second part. -/
theorem test_ldStVx :
    (transact Params.default .step ((start 0xF018#16).setV 0#4 2#8)).2 = .outcome false true ∧
    (transact Params.default .step ((start 0xF018#16).setV 0#4 1#8)).2 = .outcome false false := by decide
/-- T-KT17. -/
theorem test_ldVxK :
    next (step (startAt 0x204 0xF10A#16))
      (fun t => t.mode == .awaitingKey && t.waitX == 1#4 && t.pc == 0x204#16 && t.getV 1#4 == 0#8) := by decide
/-- T-KT18: the press after it. -/
theorem test_ldVxK_press :
    next (step (startAt 0x204 0xF10A#16)) (fun t =>
      let u := setKey 7#4 true t
      u.keyAt 7#4 && u.getV 1#4 == 7#8 && u.pc == 0x206#16 && u.mode == .running) := by decide

/-! ### Cycle, errors and host transactions -/

/-- T-CYC1 and T-CYC3. -/
theorem test_fetch_out :
    faults (step (State.reset.setPc 4095#16)) (.outOfBounds 4095) &&
    faults (step (State.reset.setPc 0xFFFF#16)) (.outOfBounds 65535) := by decide
/-- T-CYC5: no tick on a failed step. -/
theorem test_invalid_opcode :
    transact Params.default .step ((start 0xF0FF#16).setDt 5#8) =
      ((start 0xF0FF#16).setDt 5#8, .error (.invalidOpcode 0xF0FF#16)) := by decide
/-- T-KT22 and T-KT23. -/
theorem test_step_while_awaiting :
    (transact Params.default .step ((((State.reset.setDt 2#8).setSt 1#8).enterWait 0#4))).2 = .outcome false false ∧
    transact ⟨defaultFont, false⟩ .step ((((State.reset.setDt 2#8).setSt 1#8).enterWait 0#4)) =
      ((((State.reset.setDt 2#8).setSt 1#8).enterWait 0#4), .outcome false true) := by decide
/-- T-HOST4. -/
theorem test_loadProgram :
    let s := ((poke 0x202 0x77#8 State.reset).setPc 0x208#16).setV 1#4 9#8
    let t := (transact Params.default (.loadProgram [0x12#8, 0x00#8]) s).1
    t.readByte 0x200 = 0x12#8 ∧ t.readByte 0x201 = 0#8 ∧ t.readByte 0x202 = 0x77#8 ∧ t.pc = 0x208#16 ∧
      t.getV 1#4 = 9#8 := by decide
/-- T-HOST6. -/
theorem test_tickTimers :
    let t := (transact Params.default .tickTimers ((State.reset.setDt 200#8).setSt 3#8)).1
    t.dt = 199#8 ∧ t.st = 2#8 := by decide
/-- T-HOST7 and T-HOST8. -/
theorem test_flags :
    (transact Params.default .takeDrawFlag (State.reset.setShouldDraw true)) = (State.reset, .flag true) ∧
    (transact Params.default .isSoundActive (State.reset.setSt 1#8)).2 = .flag true ∧
    (transact Params.default .isSoundActive State.reset).2 = .flag false := by decide
/-- T-HOST9: a loaded program is gone. -/
theorem test_reset : (transact Params.default .reset (startAt 0x300 0x6001#16)).1 = State.reset := by decide

/-! ### Witnesses: every hypothesis of every statement is met, each clause at a boundary of its range -/

theorem test_hyp_EncodeThenDecodeGivesTheInstruction :
    (Instr.sys 0x0E1#12).wellFormed = true ∧ (Instr.drw 15#4 15#4 15#4).wellFormed = true := by decide

theorem test_hyp_DecodeThenEncodeGivesTheWord :
    decode 0x0000#16 = .ok (.sys 0x000#12) ∧ decode 0xFF65#16 = .ok (.ldRegs 15#4) := by decide

/-- Rows 0 and 2 overlap, rows 0 and 1 do not: both sides of the equivalence are met. -/
theorem test_hyp_OnlySysOverlapsOtherRows :
    (∃ r q, opcodeTable[0]? = some r ∧ opcodeTable[2]? = some q ∧ rowsOverlap r q = true) ∧
    (∃ r q, opcodeTable[33]? = some r ∧ opcodeTable[34]? = some q ∧ rowsOverlap r q = false) :=
  ⟨⟨_, _, rfl, rfl, by decide⟩, ⟨_, _, rfl, rfl, by decide⟩⟩

/-- At the lowest program address and at the last address a word can be fetched from. -/
theorem test_hyp_StepRunsTheDecodedInstruction :
    AboutToRun (.ldImm 10#4 0x2F#8) (State.reset.withFetchWord 16 0x6A2F) ∧
    AboutToRun (.seImm 0#4 0x00#8) (startAt 4094 0x3000#16) :=
  ⟨⟨rfl, by decide, by decide⟩, ⟨rfl, by decide, by decide⟩⟩

theorem test_hyp_UnmatchedWordRaisesInvalidOpcode :
    (start 0xF0FF#16).mode = .running ∧ (start 0xF0FF#16).fetch = .ok 0xF0FF#16 ∧ illegalWord 0xF0FF#16 = true ∧
    (transact Params.default .step (start 0xF0FF#16)).2 = .error (.invalidOpcode 0xF0FF#16) ∧
    illegalWord 0xFF65#16 = false := by decide

theorem test_hyp_FetchIsBigEndianOrOutOfBounds :
    (State.reset.setPc 4094#16).pc.toNat ≤ 4094 ∧ 4095 ≤ (State.reset.setPc 4095#16).pc.toNat ∧
    (State.reset.setPc 4095#16).mode = .running := by decide

theorem test_hyp_StepWhileAwaitingOnlyTicks : (State.reset.enterWait 3#4).mode = .awaitingKey := by decide

/-- A step that is a draw, and one that is not. -/
theorem test_hyp_StepReportsDrawAndSound :
    (AboutToRun (.drw 0#4 0#4 0#4) (start 0xD000#16) ∧ ∃ t, exec (.drw 0#4 0#4 0#4) (start 0xD000#16) = .next t) ∧
    (AboutToRun .cls (start 0x00E0#16) ∧ ∃ t, exec .cls (start 0x00E0#16) = .next t) :=
  ⟨⟨⟨rfl, by decide, by decide⟩, ⟨_, rfl⟩⟩, ⟨⟨rfl, by decide, by decide⟩, ⟨_, rfl⟩⟩⟩

theorem test_hyp_FailedStepChangesNothingAndRepeats :
    (transact Params.default .step ((start 0x00EE#16).setDt 5#8)).2 = .error .stackUnderflow := by decide

/-- Each of the three kinds of error an instruction raises. -/
theorem test_hyp_OnlyTheListedErrorsArise :
    faults (exec (.call 0x300#12) (withStack 0#16 16 State.reset)) .stackOverflow ∧
    faults (exec .ret State.reset) .stackUnderflow ∧
    faults (exec (.ldB 0#4) (State.reset.setI 4094#16)) (.outOfBounds 4096) ∧
    faults (exec (.stRegs 1#4) (State.reset.setI 4095#16)) (.outOfBounds 4096) ∧
    faults (exec (.ldRegs 0#4) (State.reset.setI 4096#16)) (.outOfBounds 4096) ∧
    faults (exec (.drw 0#4 0#4 2#4) (State.reset.setI 4095#16)) (.outOfBounds 4096) := by decide

theorem test_hyp_SysJumpsAndPushesNothing : (0x0E1#12 : Addr) ≠ 0x0E0#12 ∧ (0x0E1#12 : Addr) ≠ 0x0EE#12 := by decide

/-- A jump to itself, and the jump to 0xFFF. -/
theorem test_hyp_JpJumpsToTarget :
    State.reset.pc.toNat = (0x200#12 : Addr).toNat ∧
    next (exec (.jp 0xFFF#12) State.reset) (fun t => t.pc == 0xFFF#16) := by decide

/-- The lowest and the highest depth from which a call completes. -/
theorem test_hyp_CallPushesReturnAddressAndJumps :
    State.reset.sp.val < 16 ∧ (withStack 0#16 15 State.reset).sp.val < 16 ∧
    next (exec (.call 0x300#12) (withStack 0#16 15 State.reset)) (fun t => t.sp == 16) := by decide

theorem test_hyp_SeventeenthNestedCallOverflows :
    (AboutToRun (.call 0x300#12) (withStack 0#16 16 (start 0x2300#16)) ∧
      (withStack 0#16 16 (start 0x2300#16)).sp.val = 16) ∧
    State.reset.sp.val = 0 ∧ (List.replicate 16 (0x200#12 : Addr)).length = 16 :=
  ⟨⟨⟨rfl, by decide, by decide⟩, rfl⟩, rfl, rfl⟩

theorem test_hyp_RetPopsReturnAddress :
    0 < (withStack 0x206#16 1 State.reset).sp.val ∧ 0 < (withStack 0x206#16 16 State.reset).sp.val ∧
    next (exec .ret (withStack 0x206#16 16 State.reset)) (fun t => t.sp == 15 && t.pc == 0x206#16) := by decide

theorem test_hyp_RetUnderflowsOnEmptyStack :
    AboutToRun .ret (start 0x00EE#16) ∧ (start 0x00EE#16).sp.val = 0 :=
  ⟨⟨rfl, by decide, by decide⟩, rfl⟩

theorem test_hyp_CallThenRetResumesAfterTheCall :
    (withStack 0x206#16 15 State.reset).sp.val < 16 ∧
    next (runAll [.call 0x300#12, .ret] (withStack 0x206#16 15 State.reset))
      (fun t => t.sp == 15 && t.pc == 0x202#16 && t.stack[14] == 0x206#16) := by decide

/-- A skip taken and one not taken. -/
theorem test_hyp_SkipOnImmediate :
    (State.reset.getV 15#4).toNat = (0x00#8 : Byte).toNat ∧ (State.reset.getV 15#4).toNat ≠ (0x01#8 : Byte).toNat := by
  decide

/-- Both ends of the range of illegal low nibbles, and x = y. -/
theorem test_hyp_SkipOnRegister :
    decode (wordXYN 0x5 3#4 4#4 1) = .error (.invalidOpcode 0x5341#16) ∧
    decode (wordXYN 0x9 3#4 4#4 15) = .error (.invalidOpcode 0x934F#16) ∧
    next (exec (.seReg 3#4 3#4) State.reset) (fun t => t.pc == 0x204#16) ∧
    next (exec (.sneReg 3#4 3#4) State.reset) (fun t => t.pc == 0x202#16) := by decide

theorem test_hyp_LdRegCopies :
    next (exec (.ldReg 15#4 15#4) (State.reset.setV 15#4 7#8)) (fun t => t.getV 15#4 == 7#8) := by decide

theorem test_hyp_BitwiseInstructionsCombineBits :
    next (exec (.xorReg 1#4 1#4) (State.reset.setV 1#4 0x5A#8)) (fun t => t.getV 1#4 == 0#8) := by decide

/-- Destinations 14 and 15: the clause on x is met by the first and not by the second. -/
theorem test_hyp_AddRegSumAndCarry :
    (14#4 : Reg) ≠ 15#4 ∧
    next (exec (.addReg 14#4 15#4) ((State.reset.setV 14#4 255#8).setV 15#4 1#8))
      (fun t => t.getV 14#4 == 0#8 && t.getV 15#4 == 1#8) ∧
    next (exec (.addReg 14#4 15#4) (State.reset.setV 14#4 255#8))
      (fun t => t.getV 14#4 == 255#8 && t.getV 15#4 == 0#8) := by decide

/-- Equal operands on each side, the boundary of "no borrow". -/
theorem test_hyp_SubtractionsWrapAndReportNoBorrow :
    (14#4 : Reg) ≠ 15#4 ∧
    next (exec (.sub 14#4 14#4) (State.reset.setV 14#4 9#8)) (fun t => t.getV 14#4 == 0#8 && t.getV 15#4 == 1#8) ∧
    next (exec (.subn 14#4 14#4) (State.reset.setV 14#4 9#8)) (fun t => t.getV 14#4 == 0#8 && t.getV 15#4 == 1#8) := by
  decide

theorem test_hyp_ShiftsMoveOneBitIntoVF :
    (0#4 : Reg) ≠ 15#4 ∧
    next (exec (.shr 0#4 15#4) (State.reset.setV 0#4 1#8)) (fun t => t.getV 0#4 == 0#8 && t.getV 15#4 == 1#8) ∧
    next (exec (.shl 0#4 15#4) (State.reset.setV 0#4 128#8)) (fun t => t.getV 0#4 == 0#8 && t.getV 15#4 == 1#8) := by
  decide

/-- T-IM11: the last address from which three digits fit. -/
theorem test_hyp_LdBStoresDecimalDigits :
    Memory.wf State.reset.mem = true ∧ (State.reset.setI 4093#16).i.toNat + 2 ≤ 4095 ∧
    next (exec (.ldB 0#4) ((State.reset.setI 4093#16).setV 0#4 255#8))
      (fun t => t.readByte 4093 == 2#8 && t.readByte 4094 == 5#8 && t.readByte 4095 == 5#8) := by decide

/-- T-IM15: the last address from which fifteen registers fit. -/
theorem test_hyp_StRegsStoresRegistersUpToX :
    Memory.wf State.reset.mem = true ∧ (State.reset.setI 4081#16).i.toNat + (14#4 : Reg).toNat ≤ 4095 ∧
    next (exec (.stRegs 14#4) ((State.reset.setI 4081#16).setV 14#4 14#8))
      (fun t => t.readByte 4095 == 14#8 && t.readByte 4080 == 0#8) := by decide

/-- T-IM18: the last byte alone; the registers above x are kept. -/
theorem test_hyp_LdRegsLoadsRegistersUpToX :
    (State.reset.setI 4095#16).i.toNat + (0#4 : Reg).toNat ≤ 4095 ∧ (0#4 : Reg).toNat < (1#4 : Reg).toNat ∧
    next (exec (.ldRegs 0#4) (poke 4095 0x5A#8 ((State.reset.setI 4095#16).setV 1#4 7#8)))
      (fun t => t.getV 0#4 == 0x5A#8 && t.getV 1#4 == 7#8) := by decide

/-- The first index past each of the four spans, and a step that raises. -/
theorem test_hyp_DataAccessPastMemoryRaisesOutOfBounds :
    4095 < (State.reset.setI 4094#16).i.toNat + 2 ∧
    4095 < (State.reset.setI 4095#16).i.toNat + (1#4 : Reg).toNat ∧
    (0 < (1#4 : Nibble).toNat ∧ 4095 < (State.reset.setI 4096#16).i.toNat + ((1#4 : Nibble).toNat - 1)) ∧
    (AboutToRun (.ldB 0#4) ((start 0xF033#16).setI 4094#16) ∧
      exec (.ldB 0#4) ((start 0xF033#16).setI 4094#16) = .fault (.outOfBounds 4096)) :=
  ⟨by decide, by decide, by decide, ⟨rfl, by decide, by decide⟩, rfl⟩

theorem test_hyp_StoreThenLoadRestoresRegisters :
    Memory.wf State.reset.mem = true ∧ (State.reset.setI 4080#16).i.toNat + (15#4 : Reg).toNat ≤ 4095 := by decide

theorem test_hyp_StoredBytesAreFetchedNext :
    let s := State.reset.setI 0x202#16
    Memory.wf s.mem = true ∧ 1 ≤ (1#4 : Reg).toNat ∧ s.i.toNat = s.pc.toNat + 2 ∧
      s.i.toNat + (1#4 : Reg).toNat ≤ 4095 := by decide

/-- T-DSP6 and T-DSP9: no row with I outside memory, one row at the last byte; with and without a collision,
there at the cells of the first and the last pixel of the screen. -/
theorem test_hyp_DrwXorsTheSpriteAndReportsCollision :
    next (exec (.drw 0#4 1#4 0#4) ((State.reset.setI 5000#16).setV 15#4 7#8))
      (fun t => lit [] t && t.getV 15#4 == 0#8 && t.shouldDraw) ∧
    (State.reset.setI 4095#16).i.toNat + ((1#4 : Nibble).toNat - 1) ≤ 4095 ∧
    next (exec (.drw 0#4 1#4 1#4) (poke 4095 0x80#8 (((State.reset.setI 4095#16).setV 0#4 63#8).setV 1#4 31#8)))
      (fun t => lit [2047] t && t.getV 15#4 == 0#8) ∧
    spriteBit (poke 4095 0x80#8 State.reset) 4095 1 63 31 63 31 = true ∧
    spriteBit (poke 4095 0x80#8 State.reset) 4095 1 63 31 0 31 = false := by decide

theorem test_hyp_DrawCollides :
    Collides ((poke 4095 0x80#8 State.reset).setFb (Vector.replicate 32 1#64)) 4095 1 0 0 ∧
    ¬ Collides State.reset 0 0 0 0 := by
  refine ⟨⟨0, 0, by decide, by decide, by decide, by decide⟩, ?_⟩
  rintro ⟨px, py, -, -, -, h⟩
  simp [spriteBit] at h

theorem test_hyp_DrawingTwiceRestoresTheFramebuffer :
    (0#4 : Reg) ≠ 15#4 ∧ (14#4 : Reg) ≠ 15#4 ∧ State.reset.i.toNat + ((15#4 : Nibble).toNat - 1) ≤ 4095 := by decide

theorem test_hyp_PixelsNeverLeaveTheFramebuffer :
    cellIndex 63 31 = 2047 ∧ cellIndex 64 32 = 0 ∧ cellIndex 262 270 = 902 ∧
    (State.reset.setI 4095#16).i.toNat + ((1#4 : Nibble).toNat - 1) ≤ 4095 := by decide

theorem test_hyp_KeySkipsReadTheLowNibbleKey :
    (7#4 : Nibble).toNat = ((State.reset.setV 2#4 0x17#8).getV 2#4).toNat % 16 := by decide

theorem test_hyp_LdVxDtReadsTheDelayTimerBeforeTheTick : AboutToRun (.ldVxDt 3#4) (start 0xF307#16) :=
  ⟨rfl, by decide, by decide⟩

theorem test_hyp_LdDtVxLoadsTheDelayTimer : AboutToRun (.ldDtVx 0#4) (start 0xF015#16) :=
  ⟨rfl, by decide, by decide⟩

theorem test_hyp_LdStVxLoadsTheSoundTimer : AboutToRun (.ldStVx 0#4) (start 0xF018#16) :=
  ⟨rfl, by decide, by decide⟩

/-- A press during a wait, a release during it, a press in Running mode, another key than the one set, and of
the transactions during a wait one of each side: reset ends it, a step does not. -/
theorem test_hyp_OnlyAKeyPressOrResetEndsTheWait :
    (State.reset.enterWait 15#4).mode = .awaitingKey ∧ State.reset.mode = .running ∧ (0#4 : Nibble) ≠ 15#4 ∧
    ((setKey 12#4 true (State.reset.enterWait 15#4)).getV 15#4 = 12#8 ∧
      (setKey 12#4 true (State.reset.enterWait 15#4)).mode = .running) ∧
    (setKey 12#4 false (State.reset.enterWait 15#4)).mode = .awaitingKey ∧
    (setKey 5#4 true State.reset).pc = 0x200#16 ∧
    (transact Params.default .reset (State.reset.enterWait 15#4)).1.mode = .running ∧
    (transact Params.default .step (State.reset.enterWait 15#4)).1.mode = .awaitingKey := by decide

/-- The first and last byte of the font, and the first byte above it. -/
theorem test_hyp_ResetRebuildsEveryPieceOfState :
    State.reset.readByte (5 * 0 + 0) = 0xF0#8 ∧ State.reset.readByte (5 * 15 + 4) = 0x80#8 ∧
    State.reset.readByte 0x050 = 0#8 := by decide

/-- The longest program, and none. -/
theorem test_hyp_LoadProgramCopiesFromProgramBase :
    Memory.wf State.reset.mem = true ∧ (List.replicate 3584 (0xAA#8 : Byte)).length ≤ 3584 ∧
    ([] : List Byte).length ≤ 3584 := ⟨rfl, by rw [List.length_replicate], by decide⟩

theorem test_hyp_RomTooLargeIsRaisedByLoadProgramAlone :
    3584 < (List.replicate 3585 (0xAA#8 : Byte)).length ∧ (List.replicate 3584 (0xAA#8 : Byte)).length = 3584 ∧
    Memory.wf State.reset.mem = true := ⟨by rw [List.length_replicate]; decide, List.length_replicate, rfl⟩

/-- T-HOST10: cell 130 is column 2 of row 2. -/
theorem test_hyp_FrameReadAndDrawFlag :
    (State.reset.setShouldDraw true).shouldDraw = true ∧
    (State.reset.setFb (clearFramebuffer.set 2 4#64)).cell 130 = true ∧
    (State.reset.setFb (clearFramebuffer.set 2 4#64)).cell 2047 = false := by decide

theorem test_hyp_SoundActiveIsSoundTimerAboveZero :
    ∃ t, transact Params.default .step ((start 0x6001#16).setSt 2#8) = (t, .outcome false true) := ⟨_, rfl⟩

theorem test_hyp_InvariantHoldsAtReset : Inv (transact Params.default .reset (startAt 0x300 0x6001#16)).1 :=
  ⟨by decide, by decide, fun _ _ hk => absurd hk (Nat.not_lt_zero _), fun h => by cases h⟩

/-- A full stack and the highest PC the invariant admits; and a step from a state that meets it. -/
theorem test_hyp_InvariantKeptByEveryStep :
    Inv ((withStack 4096#16 16 State.reset).setPc 0x10FE#16) ∧ Inv (State.reset.withFetchWord 16 0xF10A) ∧
    ∃ t, step (State.reset.withFetchWord 16 0xF10A) = .next t := by
  refine ⟨⟨by decide, by decide, ?_, fun h => by cases h⟩, ⟨by decide, by decide, ?_, fun h => by cases h⟩, _, rfl⟩
  · intro k hk _
    simp [withStack, State.setPc, State.setStack]
  · exact fun _ _ hk => absurd hk (Nat.not_lt_zero _)

theorem test_hyp_InvariantKeptByEveryTransaction : Inv (State.reset.enterWait 0#4) :=
  ⟨rfl, by decide, fun _ _ hk => absurd hk (Nat.not_lt_zero _), fun _ => by decide⟩

/-- A register just above the highest one Fx65 may write, and a piece no instruction writes. -/
theorem test_hyp_OnlyTheListedInstructionsWriteEachPiece :
    (∃ t, exec (.ldRegs 14#4) State.reset = .next t) ∧ mayWriteReg (.ldRegs 14#4) 15#4 = false ∧
    Part.keypad ∉ mayWritePart (.drw 0#4 0#4 0#4) := ⟨⟨_, rfl⟩, by decide, by decide⟩

/-- Fx18, an instruction that is not Fx18, and a fault. -/
theorem test_hyp_NoInstructionReadsTheSoundTimer :
    (∃ t, exec (.ldStVx 0#4) State.reset = .next t) ∧
    ((∃ t, exec (.ldDtVx 0#4) State.reset = .next t) ∧ ∀ x, Instr.ldDtVx 0#4 ≠ .ldStVx x) ∧
    exec .ret State.reset = .fault .stackUnderflow :=
  ⟨⟨_, rfl⟩, ⟨⟨_, rfl⟩, fun _ h => by cases h⟩, rfl⟩

/-- Two different states: entries from SP on differ, the entry below SP is the same. -/
theorem test_hyp_StaleStackEntriesAreNeverSeen :
    SameLiveStack (withStack 0x206#16 1 State.reset)
      ((withStack 0x206#16 1 State.reset).setStack ((Vector.replicate 16 0x300#16).set 0 0x206#16) 1) ∧
    withStack 0x206#16 1 State.reset ≠
      (withStack 0x206#16 1 State.reset).setStack ((Vector.replicate 16 0x300#16).set 0 0x206#16) 1 := by
  refine ⟨⟨rfl, ?_⟩, by decide⟩
  intro k hk h
  have h0 : k = 0 := by
    have : k < 1 := h
    omega
  subst h0
  rfl

end Sys2Proof.Tests
end

section
/-! PROOFS. Control flow (41_control_flow.md): the jump 1nnn and the skips 3xkk, 4xkk, 5xy0 and 9xy0. First
how a word decodes whose major nibble has one row of the opcode map, then the moves of `PC`, then the
obligations. -/

namespace Sys2Proof

/-! ### Words whose major nibble has one row -/

/-- The rows of the opcode map that a word with major nibble `m` can match. -/
def rowsOfMajor (m : Nibble) : List Row := opcodeTable.filter fun r => literalMatches r.n0 m

/-- A row that matches a word matches it in the major nibble. -/
theorem literalMatches_of_rowMatches {r : Row} {w : Word} (h : rowMatches r w = true) :
    literalMatches r.n0 (nibble0 w) = true := by
  simp only [rowMatches, Bool.and_eq_true] at h
  obtain ⟨⟨⟨h0, -⟩, -⟩, -⟩ := h
  exact h0

/-- Trying only the rows of the word's major nibble finds what trying the whole opcode map finds. -/
theorem find?_rowsOfMajor (w : Word) :
    (rowsOfMajor (nibble0 w)).find? (rowMatches · w) = opcodeTable.find? (rowMatches · w) := by
  rw [rowsOfMajor, List.find?_filter]
  congr 1
  funext r
  cases h : rowMatches r w with
  | true => simp [literalMatches_of_rowMatches h]
  | false => simp

/-- An instruction whose major nibble has a single row is read back from its word. -/
theorem decode_encode_of_soleRow {i : Instr} {r : Row} (hi : Laws.EncodedRow.Statement i)
    (hr : rowsOfMajor (nibble0 (encode i)) = [r]) : decode (encode i) = .ok i := by
  obtain ⟨q, hq, hm, hb⟩ := hi
  have hqr : q = r := by
    rw [← List.mem_singleton, ← hr]
    exact List.mem_filter.mpr ⟨hq, literalMatches_of_rowMatches hm⟩
  subst hqr
  simp only [decode, ← find?_rowsOfMajor, hr, List.find?_singleton, hm, if_true, hb]

/-- A word that does not match the single row of its major nibble is illegal. -/
theorem decode_invalid_of_soleRow {w : Word} {r : Row} (hr : rowsOfMajor (nibble0 w) = [r])
    (hm : rowMatches r w = false) : decode w = .error (.invalidOpcode w) := by
  simp [decode, ← find?_rowsOfMajor, hr, hm]

open Laws Safety

theorem decode_wordNNN_jp (nnn : Addr) : decode (wordNNN 0x1 nnn) = .ok (.jp nnn) := by
  have hw : wordNNN 0x1 nnn = encode (.jp nnn) := wordNNN_eq 0x1#4 nnn
  rw [hw]
  exact decode_encode_of_soleRow (EncodedRow.jp nnn) (by rw [encode, nibble0_encodeNNN]; rfl)

theorem decode_wordXKK_seImm (x : Reg) (kk : Byte) : decode (wordXKK 0x3 x kk) = .ok (.seImm x kk) := by
  have hw : wordXKK 0x3 x kk = encode (.seImm x kk) := wordXKK_eq 0x3#4 x kk
  rw [hw]
  exact decode_encode_of_soleRow (EncodedRow.seImm x kk) (by rw [encode, nibble0_encodeXKK]; rfl)

theorem decode_wordXKK_sneImm (x : Reg) (kk : Byte) : decode (wordXKK 0x4 x kk) = .ok (.sneImm x kk) := by
  have hw : wordXKK 0x4 x kk = encode (.sneImm x kk) := wordXKK_eq 0x4#4 x kk
  rw [hw]
  exact decode_encode_of_soleRow (EncodedRow.sneImm x kk) (by rw [encode, nibble0_encodeXKK]; rfl)

theorem decode_wordXYN_seReg (x y : Reg) : decode (wordXYN 0x5 x y 0) = .ok (.seReg x y) := by
  have hw : wordXYN 0x5 x y 0 = encode (.seReg x y) := wordXYN_eq 0x5#4 x y 0x0#4
  rw [hw]
  exact decode_encode_of_soleRow (EncodedRow.seReg x y) (by rw [encode, nibble0_wordOfNibbles]; rfl)

theorem decode_wordXYN_sneReg (x y : Reg) : decode (wordXYN 0x9 x y 0) = .ok (.sneReg x y) := by
  have hw : wordXYN 0x9 x y 0 = encode (.sneReg x y) := wordXYN_eq 0x9#4 x y 0x0#4
  rw [hw]
  exact decode_encode_of_soleRow (EncodedRow.sneReg x y) (by rw [encode, nibble0_wordOfNibbles]; rfl)

/-- Where the single row of a major nibble asks for the low nibble 0, any other low nibble is illegal (R66). -/
theorem decode_wordXYN_invalid {m : Nibble} {f : Fields → Instr} (hr : rowsOfMajor m = [rowXY m 0x0#4 f])
    (x y : Reg) {n : Nat} (hpos : 0 < n) (hlt : n < 16) :
    decode (wordXYN m.toNat x y n) = .error (.invalidOpcode (wordXYN m.toNat x y n)) := by
  have hw : wordXYN m.toNat x y n = wordOfNibbles m x y (BitVec.ofNatLT n hlt) :=
    wordXYN_eq m x y (BitVec.ofNatLT n hlt)
  have hlow : 0x0#4 ≠ BitVec.ofNatLT n hlt := fun h => by
    have hz : 0 = n := congrArg BitVec.toNat h
    omega
  rw [hw]
  exact decode_invalid_of_soleRow (by rw [nibble0_wordOfNibbles, hr]) (by simp [hlow])

end Sys2Proof

namespace Sys2Proof.Machine

/-! ### Moves of `PC` -/

/-- A jump to the address the machine is at changes nothing. -/
theorem State.setPc_addrOf_self {s : State} {nnn : Addr} (h : s.pc.toNat = nnn.toNat) :
    s.setPc (addrOf nnn) = s := by
  have hpc : addrOf nnn = s.pc := BitVec.eq_of_toNat_eq (by rw [toNat_addrOf, h])
  rw [hpc]
  rfl

/-- From 4095 on there is no whole word to fetch (R81). -/
theorem State.fetch_outOfBounds {s : State} (h : 4095 ≤ s.pc.toNat) :
    s.fetch = .error (.outOfBounds s.pc.toNat) := by
  rcases State.fetch_cases s with ⟨hle, -⟩ | ⟨-, hf⟩
  · omega
  · exact hf

/-- A skip on equality, its comparison and its target as numbers. -/
theorem State.pc_skipIf_beq (s : State) (a b : Byte) :
    (s.skipIf (a == b)).pc = if a.toNat = b.toNat then s.pc + 4#16 else s.pc + 2#16 := by
  rw [State.pc_skipIf]
  by_cases h : a = b
  · simp [h]
  · simp [h, BitVec.toNat_inj]

/-- A skip on difference, its comparison and its target as numbers. -/
theorem State.pc_skipIf_bne (s : State) (a b : Byte) :
    (s.skipIf (a != b)).pc = if a.toNat = b.toNat then s.pc + 2#16 else s.pc + 4#16 := by
  rw [State.pc_skipIf]
  by_cases h : a = b
  · simp [h]
  · simp [h, BitVec.toNat_inj]

theorem exec_jp (nnn : Addr) (s : State) : exec (.jp nnn) s = .next (s.setPc (addrOf nnn)) := rfl

theorem exec_seImm (x : Reg) (kk : Byte) (s : State) :
    exec (.seImm x kk) s = .next (s.skipIf (s.getV x == kk)) := rfl

theorem exec_sneImm (x : Reg) (kk : Byte) (s : State) :
    exec (.sneImm x kk) s = .next (s.skipIf (s.getV x != kk)) := rfl

theorem exec_seReg (x y : Reg) (s : State) :
    exec (.seReg x y) s = .next (s.skipIf (s.getV x == s.getV y)) := rfl

theorem exec_sneReg (x y : Reg) (s : State) :
    exec (.sneReg x y) s = .next (s.skipIf (s.getV x != s.getV y)) := rfl

end Sys2Proof.Machine

namespace Sys2Proof.Safety

open Sys2Proof.Machine

/-- A skip, taken or not, changes `PC` alone. -/
theorem frame_skipIf (s : State) (c : Bool) : Frame [] [] s (s.skipIf c) := frame_setPc s _

/-! ### The obligations -/

/-- Settles O14: the jump is one write of `PC`, and 0xFFF is past the last address a word can be fetched from. -/
theorem jpJumpsToTarget : Obligations.JpJumpsToTarget := by
  intro nnn s
  have hpc : (s.setPc (addrOf nnn)).pc.toNat = nnn.toNat := toNat_addrOf nnn
  refine ⟨decode_wordNNN_jp nnn, s.setPc (addrOf nnn), exec_jp nnn s, hpc, frame_setPc s _,
    State.setPc_addrOf_self, ?_⟩
  rintro rfl
  exact State.fetch_outOfBounds (Nat.le_of_eq hpc.symm)

/-- Settles O20: each skip is one write of `PC` by the comparison of `V[x]` with `kk`. -/
theorem skipOnImmediate : Obligations.SkipOnImmediate := by
  intro x kk s
  refine ⟨decode_wordXKK_seImm x kk, decode_wordXKK_sneImm x kk, ?_, ?_⟩
  · exact ⟨_, exec_seImm x kk s, State.pc_skipIf_beq s _ _, frame_skipIf s _⟩
  · exact ⟨_, exec_sneImm x kk s, State.pc_skipIf_bne s _ _, frame_skipIf s _⟩

/-- Settles O21: each skip is one write of `PC` by the comparison of `V[x]` with `V[y]`, which holds of itself
when `x = y`; the major nibbles 5 and 9 have one row each, with low nibble 0. -/
theorem skipOnRegister : Obligations.SkipOnRegister := by
  intro x y s
  have hse := State.pc_skipIf_beq s (s.getV x) (s.getV y)
  have hsne := State.pc_skipIf_bne s (s.getV x) (s.getV y)
  refine ⟨decode_wordXYN_seReg x y, decode_wordXYN_sneReg x y, fun n hpos hlt => ⟨?_, ?_⟩, ?_, ?_⟩
  · exact decode_wordXYN_invalid (m := 0x5#4) rfl x y hpos hlt
  · exact decode_wordXYN_invalid (m := 0x9#4) rfl x y hpos hlt
  · refine ⟨_, exec_seReg x y s, hse, ?_, frame_skipIf s _⟩
    rintro rfl
    rw [hse, if_pos rfl]
  · refine ⟨_, exec_sneReg x y s, hsne, ?_, frame_skipIf s _⟩
    rintro rfl
    rw [hsne, if_pos rfl]

end Sys2Proof.Safety
end

section
/-! PROOFS. The loads and the flagless arithmetic (42_alu.md): 6xkk, 7xkk and 8xy0 to 8xy3. First how a word
of a row with a literal low nibble decodes, then the write of one register, then the obligations. -/

namespace Sys2Proof

/-! ### Words of the format XY -/

/-- The row's literals agree with the four nibbles of a word (R64). -/
def matchesNibbles (a b c d : Nibble) (r : Row) : Bool :=
  literalMatches r.n0 a && literalMatches r.n1 b && literalMatches r.n2 c && literalMatches r.n3 d

theorem rowMatches_wordOfNibbles (a b c d : Nibble) :
    (fun r => rowMatches r (wordOfNibbles a b c d)) = matchesNibbles a b c d := by
  funext r
  simp [rowMatches, matchesNibbles]

open Laws Safety

/-- A word whose first row is one of format XY decodes to that row's instruction on `x` and `y`. -/
theorem decode_wordXYN_of_rowXY {m n : Nibble} {g : Reg → Reg → Instr} (x y : Reg)
    (hr : opcodeTable.find? (matchesNibbles m x y n) = some (rowXY m n fun f => g f.x f.y)) :
    decode (wordXYN m.toNat x y n.toNat) = .ok (g x y) := by
  rw [wordXYN_eq, decode, rowMatches_wordOfNibbles, hr]
  simp [rowXY]

theorem decode_wordXYN_ldReg (x y : Reg) : decode (wordXYN 0x8 x y 0x0) = .ok (.ldReg x y) :=
  decode_wordXYN_of_rowXY (m := 0x8#4) (n := 0x0#4) x y rfl

theorem decode_wordXYN_orReg (x y : Reg) : decode (wordXYN 0x8 x y 0x1) = .ok (.orReg x y) :=
  decode_wordXYN_of_rowXY (m := 0x8#4) (n := 0x1#4) x y rfl

theorem decode_wordXYN_andReg (x y : Reg) : decode (wordXYN 0x8 x y 0x2) = .ok (.andReg x y) :=
  decode_wordXYN_of_rowXY (m := 0x8#4) (n := 0x2#4) x y rfl

theorem decode_wordXYN_xorReg (x y : Reg) : decode (wordXYN 0x8 x y 0x3) = .ok (.xorReg x y) :=
  decode_wordXYN_of_rowXY (m := 0x8#4) (n := 0x3#4) x y rfl

theorem decode_wordXKK_ldImm (x : Reg) (kk : Byte) : decode (wordXKK 0x6 x kk) = .ok (.ldImm x kk) := by
  have hw : wordXKK 0x6 x kk = encode (.ldImm x kk) := wordXKK_eq 0x6#4 x kk
  rw [hw]
  exact decode_encode_of_soleRow (EncodedRow.ldImm x kk) (by rw [encode, nibble0_encodeXKK]; rfl)

theorem decode_wordXKK_addImm (x : Reg) (kk : Byte) : decode (wordXKK 0x7 x kk) = .ok (.addImm x kk) := by
  have hw : wordXKK 0x7 x kk = encode (.addImm x kk) := wordXKK_eq 0x7#4 x kk
  rw [hw]
  exact decode_encode_of_soleRow (EncodedRow.addImm x kk) (by rw [encode, nibble0_encodeXKK]; rfl)

end Sys2Proof

namespace Sys2Proof.Machine

/-! ### The write of one register -/

/-- A register written with what it holds changes nothing. -/
theorem State.setV_getV_self (s : State) (x : Reg) : s.setV x (s.getV x) = s := by
  rw [State.setV, State.getV, Vector.set_getElem_self]

theorem exec_ldImm (x : Reg) (kk : Byte) (s : State) :
    exec (.ldImm x kk) s = .next (s.setV x kk).advance := rfl

theorem exec_addImm (x : Reg) (kk : Byte) (s : State) :
    exec (.addImm x kk) s = .next (s.setV x (s.getV x + kk)).advance := rfl

theorem exec_ldReg (x y : Reg) (s : State) :
    exec (.ldReg x y) s = .next (s.setV x (s.getV y)).advance := rfl

theorem exec_orReg (x y : Reg) (s : State) :
    exec (.orReg x y) s = .next (s.setV x (s.getV x ||| s.getV y)).advance := rfl

theorem exec_andReg (x y : Reg) (s : State) :
    exec (.andReg x y) s = .next (s.setV x (s.getV x &&& s.getV y)).advance := rfl

theorem exec_xorReg (x y : Reg) (s : State) :
    exec (.xorReg x y) s = .next (s.setV x (s.getV x ^^^ s.getV y)).advance := rfl

end Sys2Proof.Machine

namespace Sys2Proof.Safety

open Sys2Proof.Machine

/-- The spec of an instruction that writes `b` to `V[x]` and moves `PC` on: no flag, nothing else. -/
theorem next_of_setV_advance {i : Instr} {s : State} {x : Reg} {b : Byte}
    (h : exec i s = .next (s.setV x b).advance) :
    ∃ t, exec i s = .next t ∧ t.getV x = b ∧ t.pc = s.pc + 2#16 ∧ Frame [x] [] s t :=
  ⟨_, h, State.getV_setV_same s x b, rfl, frame_setV s x b⟩

/-- An instruction that completes hands its state to the rest of the run (R92). -/
theorem runAll_cons_of_next {i : Instr} {is : List Instr} {s t : State} (h : exec i s = .next t) :
    runAll (i :: is) s = runAll is t := by
  rw [runAll, h]

/-! ### The obligations -/

/-- Settles O24: the byte is added in 8-bit arithmetic; after 6xkk the register holds `kk`, to which 7xkk adds
`kk` again. -/
theorem addImmAddsModulo256WithoutFlag : Obligations.AddImmAddsModulo256WithoutFlag := by
  intro x kk s
  refine ⟨decode_wordXKK_addImm x kk, ?_, ?_⟩
  · obtain ⟨t, ht, hv, hpc, hframe⟩ := next_of_setV_advance (exec_addImm x kk s)
    exact ⟨t, ht, by rw [hv, BitVec.toNat_add], hpc, hframe⟩
  · obtain ⟨t, ht, hv, -⟩ := next_of_setV_advance (exec_ldImm x kk s)
    obtain ⟨u, hu, hsum, -⟩ := next_of_setV_advance (exec_addImm x kk t)
    exact ⟨u, by rw [runAll_cons_of_next ht, runAll_cons_of_next hu, runAll],
      by rw [hsum, hv, BitVec.toNat_add]⟩

/-- Settles O23: the instruction is one write of `V[x]`. -/
theorem ldImmLoadsTheByte : Obligations.LdImmLoadsTheByte := fun x kk s =>
  ⟨decode_wordXKK_ldImm x kk, next_of_setV_advance (exec_ldImm x kk s)⟩

/-- Settles O25: the instruction is one write of `V[x]`, with what it held when `x = y`. -/
theorem ldRegCopies : Obligations.LdRegCopies := by
  intro x y s
  refine ⟨decode_wordXYN_ldReg x y, _, exec_ldReg x y s, State.getV_setV_same s x _, rfl, frame_setV s x _, ?_⟩
  rintro rfl
  rw [State.setV_getV_self]
  exact frame_setPc s _

/-- Settles O26: each instruction is one write of `V[x]`; bit `k` of the byte written depends on bit `k` of the
operands alone, and a byte XORed with itself is 0. -/
theorem bitwiseInstructionsCombineBits : Obligations.BitwiseInstructionsCombineBits := by
  intro x y s
  refine ⟨decode_wordXYN_orReg x y, decode_wordXYN_andReg x y, decode_wordXYN_xorReg x y, ?_, ?_, ?_⟩
  · obtain ⟨t, ht, hv, hpc, hframe⟩ := next_of_setV_advance (exec_orReg x y s)
    exact ⟨t, ht, hpc, hframe, fun k => by rw [hv, BitVec.getLsbD_or]⟩
  · obtain ⟨t, ht, hv, hpc, hframe⟩ := next_of_setV_advance (exec_andReg x y s)
    exact ⟨t, ht, hpc, hframe, fun k => by rw [hv, BitVec.getLsbD_and]⟩
  · obtain ⟨t, ht, hv, hpc, hframe⟩ := next_of_setV_advance (exec_xorReg x y s)
    refine ⟨t, ht, hpc, hframe, fun k => by rw [hv, BitVec.getLsbD_xor], ?_⟩
    rintro rfl
    rw [hv, BitVec.xor_self]

end Sys2Proof.Safety
end

section
/-! PROOFS. The index register (43_index_memory.md): Annn. First its word, then the write of `I`, then the
obligation. -/

namespace Sys2Proof

open Laws Safety

theorem decode_wordNNN_ldI (nnn : Addr) : decode (wordNNN 0xA nnn) = .ok (.ldI nnn) := by
  have hw : wordNNN 0xA nnn = encode (.ldI nnn) := wordNNN_eq 0xA#4 nnn
  rw [hw]
  exact decode_encode_of_soleRow (EncodedRow.ldI nnn) (by rw [encode, nibble0_encodeNNN]; rfl)

end Sys2Proof

namespace Sys2Proof.Machine

/-! ### The write of `I` -/

theorem exec_ldI (nnn : Addr) (s : State) : exec (.ldI nnn) s = .next (s.setI (addrOf nnn)).advance := rfl

end Sys2Proof.Machine

namespace Sys2Proof.Safety

open Sys2Proof.Machine

/-- `I` written and `PC` moved on. -/
theorem frame_setI (s : State) (w : Word) : Frame [] [.index] s (s.setI w).advance := by
  apply frame_of_fields <;> intros <;> simp_all

/-- The spec of an instruction that writes `w` to `I` and moves `PC` on: no register, nothing else. -/
theorem next_of_setI_advance {i : Instr} {s : State} {w : Word}
    (h : exec i s = .next (s.setI w).advance) :
    ∃ t, exec i s = .next t ∧ t.i = w ∧ t.pc = s.pc + 2#16 ∧ Frame [] [.index] s t :=
  ⟨_, h, rfl, rfl, frame_setI s w⟩

/-! ### The obligation -/

/-- Settles O31: the instruction is one write of `I`, with `nnn` zero-extended. -/
theorem ldISetsTheIndex : Obligations.LdISetsTheIndex := by
  intro nnn s
  obtain ⟨t, ht, hi, hpc, hframe⟩ := next_of_setI_advance (exec_ldI nnn s)
  exact ⟨decode_wordNNN_ldI nnn, t, ht, by rw [hi, toNat_addrOf], hpc, hframe⟩

end Sys2Proof.Safety
end

section
/-! PROOFS. The display (44_display.md): every pixel has its cell, and a draw whose sprite lies in memory
completes. First the cell of a pixel and the span check of a draw, then the obligation. -/

namespace Sys2Proof.Machine

/-- The cell of a pixel, each coordinate wrapped on its own (R152). -/
theorem cellIndex_eq (px py : Nat) : cellIndex px py = py % 32 * 64 + px % 64 := rfl

/-- An access whose span fits goes on (R43). -/
theorem withSpan_of_fits {base count : Nat} {go : Result} (h : count = 0 ∨ base + count ≤ 4096) :
    withSpan base count go = go := by
  rw [withSpan_eq, if_pos h]

theorem exec_drw (x y : Reg) (n : Nibble) (s : State) : exec (.drw x y n) s = execDrw x y n s := rfl

/-- A sprite with no rows, or with its last row at 4095 or below, fits its span (R43). -/
theorem sprite_fits {n : Nibble} {s : State} (h : n = 0#4 ∨ s.i.toNat + (n.toNat - 1) ≤ 4095) :
    n.toNat = 0 ∨ s.base + n.toNat ≤ 4096 := by
  obtain rfl | hlast := h
  · exact .inl rfl
  · rw [State.base]
    omega

/-- A draw whose sprite fits completes: past the span check nothing can raise (R151). -/
theorem execDrw_next_of_fits (x y : Reg) {n : Nibble} {s : State}
    (h : n.toNat = 0 ∨ s.base + n.toNat ≤ 4096) : ∃ t, execDrw x y n s = .next t :=
  ⟨_, withSpan_of_fits h⟩

end Sys2Proof.Machine

namespace Sys2Proof.Safety

open Sys2Proof.Machine

/-! ### The obligation -/

/-- Settles O42: the cell index is built from the two remainders, and the span check is the only thing in a draw
that can raise. -/
theorem pixelsNeverLeaveTheFramebuffer : Obligations.PixelsNeverLeaveTheFramebuffer := by
  refine ⟨fun px py => ?_, fun x y n s hsprite f hfault => ?_⟩
  · exact ⟨px % 64, py % 32, Nat.mod_lt px (by decide), Nat.mod_lt py (by decide), rfl, rfl,
      cellIndex_eq px py, cellIndex_lt px py⟩
  · obtain ⟨t, ht⟩ := execDrw_next_of_fits x y (sprite_fits hsprite)
    rw [exec_drw, ht] at hfault
    cases hfault

end Sys2Proof.Safety
end

section
/-! PROOFS. The keypad and timers (45_keypad_timers.md): Fx07, Fx15 and Fx18. First how a word of a row with a
literal low byte decodes, then the step that is about to run an instruction and the timers after its tick, then
the obligations. -/

namespace Sys2Proof

/-! ### Words of the format X -/

open Laws Safety

/-- A word whose first row is one of format X decodes to that row's instruction on `x`. -/
theorem decode_wordX_of_rowX {m a b : Nibble} {g : Reg → Instr} (x : Reg)
    (hr : opcodeTable.find? (matchesNibbles m x a b) = some (rowX m a b fun f => g f.x)) :
    decode (wordX m.toNat x (16 * a.toNat + b.toNat)) = .ok (g x) := by
  rw [wordX_eq, decode, rowMatches_wordOfNibbles, hr]
  simp [rowX]

theorem decode_wordX_ldVxDt (x : Reg) : decode (wordX 0xF x 0x07) = .ok (.ldVxDt x) :=
  decode_wordX_of_rowX (m := 0xF#4) (a := 0x0#4) (b := 0x7#4) x rfl

theorem decode_wordX_ldDtVx (x : Reg) : decode (wordX 0xF x 0x15) = .ok (.ldDtVx x) :=
  decode_wordX_of_rowX (m := 0xF#4) (a := 0x1#4) (b := 0x5#4) x rfl

theorem decode_wordX_ldStVx (x : Reg) : decode (wordX 0xF x 0x18) = .ok (.ldStVx x) :=
  decode_wordX_of_rowX (m := 0xF#4) (a := 0x1#4) (b := 0x8#4) x rfl

/-- Two bytes that decode to an instruction are a word that does (R60). -/
theorem decode_of_decodeBytes_pair {hi lo : Byte} {i : Instr} (h : decodeBytes [hi, lo] = .ok (i, [])) :
    decode (wordOfBytes hi lo) = .ok i := by
  rw [decodeBytes] at h
  split at h
  · rename_i hdecode
    cases h
    exact hdecode
  · cases h

end Sys2Proof

namespace Sys2Proof.Machine

/-! ### The timers after the tick of a step -/

@[simp] theorem State.getV_tickIf (s : State) (c : Bool) (r : Reg) : (s.tickIf c).getV r = s.getV r := by
  rw [State.tickIf_eq]
  rfl

/-- The delay timer after the tick of a step, as a number (R86). -/
theorem State.toNat_dt_tickIf (s : State) (c : Bool) :
    (s.tickIf c).dt.toNat = if c then s.dt.toNat - 1 else s.dt.toNat := by
  cases c with
  | false => rfl
  | true => exact toNat_countDown s.dt

/-- The sound timer after the tick of a step, as a number (R86). -/
theorem State.toNat_st_tickIf (s : State) (c : Bool) :
    (s.tickIf c).st.toNat = if c then s.st.toNat - 1 else s.st.toNat := by
  cases c with
  | false => rfl
  | true => exact toNat_countDown s.st

/-! ### The timer instructions -/

theorem exec_ldVxDt (x : Reg) (s : State) : exec (.ldVxDt x) s = .next (s.setV x s.dt).advance := rfl

theorem exec_ldDtVx (x : Reg) (s : State) : exec (.ldDtVx x) s = .next (s.setDt (s.getV x)).advance := rfl

theorem exec_ldStVx (x : Reg) (s : State) : exec (.ldStVx x) s = .next (s.setSt (s.getV x)).advance := rfl

/-- The transaction that reads the sound-active signal answers `ST > 0` (R189). -/
theorem transact_isSoundActive_answer (p : Params) (s : State) :
    (transact p .isSoundActive s).2 = .flag (decide (0 < s.st.toNat)) := by
  rw [← State.soundActive_eq]
  rfl

end Sys2Proof.Machine

namespace Sys2Proof.Safety

open Sys2Proof.Machine

/-! ### The step that is about to run an instruction -/

/-- The front of the cycle finds the instruction that is about to run (R81 to R83). -/
theorem AboutToRun.nextInstr_eq {i : Instr} {s : State} (h : AboutToRun i s) : s.nextInstr = .ok i := by
  obtain ⟨-, hpc, hbytes⟩ := h
  have hdecode := decode_of_decodeBytes_pair hbytes
  rcases State.fetch_cases s with ⟨-, hfetch⟩ | ⟨hout, -⟩
  · simp only [State.nextInstr, hfetch, hdecode]
  · omega

/-- The step that runs a completing instruction ends with the instruction's state, ticked (R80). -/
theorem AboutToRun.cycle_eq {i : Instr} {s t : State} (h : AboutToRun i s) (ht : exec i s = .next t)
    (p : Params) : cycle p s = .next (t.tickIf p.tickInStep) := by
  have hrunning : s.mode = .running := h.1
  rw [cycle_of_nextInstr hrunning h.nextInstr_eq, ht]
  rfl

/-! ### Frames of the timer writes -/

/-- `DT` written and `PC` moved on. -/
theorem frame_setDt (s : State) (b : Byte) : Frame [] [.delay] s (s.setDt b).advance := by
  apply frame_of_fields <;> intros <;> simp_all

/-- `ST` written and `PC` moved on. -/
theorem frame_setSt (s : State) (b : Byte) : Frame [] [.sound] s (s.setSt b).advance := by
  apply frame_of_fields <;> intros <;> simp_all

/-! ### The obligations -/

/-- Settles O44: the instruction is one write of `V[x]`, which the tick at the end of the step does not touch. -/
theorem ldVxDtReadsTheDelayTimerBeforeTheTick : Obligations.LdVxDtReadsTheDelayTimerBeforeTheTick := by
  intro x s
  obtain ⟨t, ht, hv, hpc, hframe⟩ := next_of_setV_advance (exec_ldVxDt x s)
  refine ⟨decode_wordX_ldVxDt x, ⟨t, ht, hv, hpc, hframe⟩, fun hrun p => ?_⟩
  exact ⟨_, hrun.cycle_eq ht p, by rw [State.getV_tickIf, hv]⟩

/-- Settles O45: the instruction is one write of `DT`, from which the tick at the end of the step counts down. -/
theorem ldDtVxLoadsTheDelayTimer : Obligations.LdDtVxLoadsTheDelayTimer := by
  intro x s
  have ht := exec_ldDtVx x s
  refine ⟨decode_wordX_ldDtVx x, ⟨_, ht, rfl, rfl, frame_setDt s _⟩, fun hrun p => ?_⟩
  exact ⟨_, hrun.cycle_eq ht p, State.toNat_dt_tickIf _ _⟩

/-- Settles O46: the instruction is one write of `ST`, which the signal reads as it stands and from which the tick
at the end of the step counts down. -/
theorem ldStVxLoadsTheSoundTimer : Obligations.LdStVxLoadsTheSoundTimer := by
  intro x s
  have ht := exec_ldStVx x s
  refine ⟨decode_wordX_ldStVx x, ⟨_, ht, rfl, rfl, frame_setSt s _, ?_⟩, fun hrun p => ?_⟩
  · exact fun p => transact_isSoundActive_answer p _
  · exact ⟨_, hrun.cycle_eq ht p, State.toNat_st_tickIf _ _⟩

end Sys2Proof.Safety
end

section
/-! PROOFS. The errors and the host interface (60_exceptions.md): InvalidOpcode, StackOverflow, StackUnderflow and
RomTooLarge, the framebuffer read, the draw flag and the sound-active signal. First which words match no row of the
opcode map, then the errors an instruction raises and the step that reports them, then the draw flag, then the
obligations. -/

namespace Sys2Proof

open Safety

/-! ### Words that match no row -/

/-- A row with one literal nibble asks for the major nibble of the word (R62, R64). -/
theorem rowMatches_rowMajor_toNat (m : Nibble) (f : Fields → Instr) (w : Word) :
    rowMatches (rowMajor m f) w = decide (w.toNat / 4096 = m.toNat) := by
  rw [rowMatches_rowMajor, Bool.beq_eq_decide_eq, decide_eq_decide, ← BitVec.toNat_inj, nibble0,
    BitVec.extractLsb'_toNat, Nat.shiftRight_eq_div_pow]
  have := w.isLt
  omega

/-- A row of format XY asks for the major nibble and the low nibble of the word (R62, R64). -/
theorem rowMatches_rowXY_toNat (m low : Nibble) (f : Fields → Instr) (w : Word) :
    rowMatches (rowXY m low f) w = decide (w.toNat / 4096 = m.toNat ∧ w.toNat % 16 = low.toNat) := by
  rw [Bool.eq_iff_iff, rowMatches_rowXY, Bool.and_eq_true, beq_iff_eq, beq_iff_eq, decide_eq_true_iff,
    ← BitVec.toNat_inj, ← BitVec.toNat_inj]
  simp only [nibble0, nibble3, BitVec.extractLsb'_toNat, Nat.shiftRight_eq_div_pow]
  have := w.isLt
  omega

/-- A row of format X asks for the major nibble and the low byte of the word (R62, R64). -/
theorem rowMatches_rowX_toNat (m a b : Nibble) (f : Fields → Instr) (w : Word) :
    rowMatches (rowX m a b f) w =
      decide (w.toNat / 4096 = m.toNat ∧ w.toNat % 256 = 16 * a.toNat + b.toNat) := by
  rw [Bool.eq_iff_iff, rowMatches_rowX, Bool.and_eq_true, Bool.and_eq_true, beq_iff_eq, beq_iff_eq, beq_iff_eq,
    decide_eq_true_iff, ← BitVec.toNat_inj, ← BitVec.toNat_inj, ← BitVec.toNat_inj]
  simp only [nibble0, nibble2, nibble3, BitVec.extractLsb'_toNat, Nat.shiftRight_eq_div_pow]
  have := w.isLt
  have := a.isLt
  have := b.isLt
  omega

/-- A row with no field asks for the whole word (R64). -/
theorem rowMatches_fixed_toNat (c : Nibble) (f : Fields → Instr) (w : Word) :
    rowMatches ⟨some 0x0#4, some 0x0#4, some 0xE#4, some c, f⟩ w = decide (w.toNat = 0x00E0 + c.toNat) := by
  rw [Bool.eq_iff_iff, rowMatches_fixed, decide_eq_true_iff]
  simp only [Bool.and_eq_true, beq_iff_eq, ← BitVec.toNat_inj, nibble0, nibble1, nibble2, nibble3,
    BitVec.extractLsb'_toNat, Nat.shiftRight_eq_div_pow]
  have := w.isLt
  have := c.isLt
  simp only [BitVec.toNat_ofNat]
  omega

/-- The rows of R65 and the table of R66 as conditions on the major nibble, the low nibble and the low byte, compared
for each major nibble: a row with no other literal leaves no illegal word of its major. -/
theorem unmatched_iff_illegalWord (w : Word) :
    (∀ r ∈ opcodeTable, rowMatches r w = false) ↔ illegalWord w = true := by
  simp only [opcodeTable, rowsControl, rowsAlu, rowsMixed, rowsF, List.forall_mem_append, List.forall_mem_cons,
    rowMatches_fixed_toNat, rowMatches_rowMajor_toNat, rowMatches_rowXY_toNat, rowMatches_rowX_toNat, illegalWord,
    decide_eq_false_iff_not]
  have hmajor : w.toNat / 4096 < 16 := by have := w.isLt; omega
  interval_cases hm : w.toNat / 4096 <;> simp <;> omega

/-- Dispatch rejects a word exactly when no row matches it (R64, R83). -/
theorem decode_invalid_iff_unmatched (w : Word) :
    decode w = .error (.invalidOpcode w) ↔ ∀ r ∈ opcodeTable, rowMatches r w = false := by
  rw [decode]
  split
  · rename_i r hfind
    have hmatch := List.find?_some (p := fun r => rowMatches r w) hfind
    refine ⟨nofun, fun hnone => ?_⟩
    rw [hnone r (List.mem_of_find?_eq_some hfind)] at hmatch
    cases hmatch
  · rename_i hfind
    simpa using hfind

end Sys2Proof

namespace Sys2Proof.Machine

/-! ### The errors of an instruction -/

/-- What a span check raises before an access that itself raises nothing (R43, R173). -/
theorem withSpan_fault {base count : Nat} {t : State} {f : Fault} (h : withSpan base count (.next t) = .fault f) :
    f = .outOfBounds (max base 4096) := by
  rw [withSpan_eq] at h
  split at h
  · cases h
  · cases h
    rfl

/-- What passes a span check is what the check guards (R43). -/
theorem withSpan_next {base count : Nat} {go : Result} {t : State} (h : withSpan base count go = .next t) :
    go = .next t := by
  rw [withSpan_eq] at h
  split at h
  · exact h
  · cases h

/-- All CALL can do (R103, R174). -/
theorem exec_call_cases (nnn : Addr) (s : State) :
    (∃ (h : s.sp.val < 16), exec (.call nnn) s = .next
      ((s.setStack (s.stack.set s.sp.val (s.pc + 2#16) h) ⟨s.sp.val + 1, by omega⟩).setPc (addrOf nnn))) ∨
    (s.sp.val = 16 ∧ exec (.call nnn) s = .fault .stackOverflow) := by
  rcases State.push_cases s (s.pc + 2#16) with ⟨hlt, hpush⟩ | ⟨hfull, hpush⟩
  · exact .inl ⟨hlt, by rw [exec, execCall, hpush]⟩
  · exact .inr ⟨hfull, by rw [exec, execCall, hpush, raise]⟩

/-- All RET can do (R101, R175). -/
theorem exec_ret_cases (s : State) :
    (∃ (h : 0 < s.sp.val), exec .ret s = .next
      ((s.setStack s.stack ⟨s.sp.val - 1, by omega⟩).setPc (s.stack[s.sp.val - 1]'(by omega)))) ∨
    (s.sp.val = 0 ∧ exec .ret s = .fault .stackUnderflow) := by
  rcases State.pop_cases s with ⟨hpos, hpop⟩ | ⟨hempty, hpop⟩
  · exact .inl ⟨hpos, by rw [exec, execRet, hpop]⟩
  · exact .inr ⟨hempty, by rw [exec, execRet, hpop, raise]⟩

/-- CALL raises StackOverflow exactly on a full stack (R174). -/
theorem exec_call_overflow_iff (nnn : Addr) (s : State) :
    exec (.call nnn) s = .fault .stackOverflow ↔ s.sp.val = 16 := by
  rcases exec_call_cases nnn s with ⟨hlt, hnext⟩ | ⟨hfull, hfault⟩
  · simp [hnext, Nat.ne_of_lt hlt]
  · simp [hfault, hfull]

/-- RET raises StackUnderflow exactly on an empty stack (R175). -/
theorem exec_ret_underflow_iff (s : State) : exec .ret s = .fault .stackUnderflow ↔ s.sp.val = 0 := by
  rcases exec_ret_cases s with ⟨hpos, hnext⟩ | ⟨hempty, hfault⟩
  · simp [hnext, Nat.ne_of_gt hpos]
  · simp [hfault, hempty]

/-- The errors an instruction raises: those of the stack, and those of a span (R173 to R175). -/
theorem exec_fault {i : Instr} {s : State} {f : Fault} (h : exec i s = .fault f) :
    f = .stackOverflow ∨ f = .stackUnderflow ∨ f = .outOfBounds (max s.base 4096) := by
  cases i with
  | call nnn =>
    rcases exec_call_cases nnn s with ⟨_, hnext⟩ | ⟨-, hfault⟩
    · rw [hnext] at h; cases h
    · rw [hfault] at h; cases h; exact .inl rfl
  | ret =>
    rcases exec_ret_cases s with ⟨_, hnext⟩ | ⟨-, hfault⟩
    · rw [hnext] at h; cases h
    · rw [hfault] at h; cases h; exact .inr (.inl rfl)
  | drw | ldB | stRegs | ldRegs => exact .inr (.inr (withSpan_fault h))
  | _ => cases h

/-! ### The step as a transaction -/

/-- A cycle that raises is a step that reports the error and leaves the state (R177, R179). -/
theorem transact_step_of_fault {p : Params} {s : State} {f : Fault} (h : cycle p s = .fault f) :
    transact p .step s = (s, .error f) := by
  rw [transact, stepTransaction, h]

/-- A step that reports an error is a cycle that raised it (R179). -/
theorem cycle_fault_of_transact_step {p : Params} {s : State} {f : Fault}
    (h : (transact p .step s).2 = .error f) : cycle p s = .fault f := by
  rw [transact, stepTransaction] at h
  split at h
  · cases h
  · rename_i hc
    cases h
    exact hc
  · cases h

/-- A step that reports an outcome leaves the cycle's state and the signal of that state (R87, R189). -/
theorem transact_step_outcome {p : Params} {s t : State} {d a : Bool}
    (h : transact p .step s = (t, .outcome d a)) : a = t.soundActive := by
  rw [transact, stepTransaction] at h
  split at h
  · cases h
    rfl
  · cases h
  · cases h

/-- In Running mode a fetched word that decodes is executed, and one that does not raises InvalidOpcode with it
(R82 to R84). -/
theorem cycle_of_fetch (p : Params) {s : State} {w : Word} (hm : s.mode = .running) (hf : s.fetch = .ok w) :
    (∃ i, decode w = .ok i ∧ cycle p s = Outcome.tickIf p.tickInStep (exec i s)) ∨
    (decode w = .error (.invalidOpcode w) ∧ cycle p s = .fault (.invalidOpcode w)) := by
  rcases decode_cases w with ⟨i, hd⟩ | hd
  · exact .inl ⟨i, hd, cycle_of_nextInstr hm (by simp only [State.nextInstr, hf, hd])⟩
  · exact .inr ⟨hd, by simp only [cycle, hm, State.nextInstr, hf, hd, raise]⟩

/-- The tick of a step neither raises nor hides an error (R80). -/
theorem Outcome.tickIf_fault_iff {c : Bool} {r : Result} {f : Fault} :
    Outcome.tickIf c r = .fault f ↔ r = .fault f := by
  cases r <;> simp [Outcome.tickIf]

/-! ### The draw flag and the framebuffer -/

/-- A draw sets `should_draw`; every other instruction that completes keeps it (R19, R151). -/
theorem exec_shouldDraw {i : Instr} {s t : State} (h : exec i s = .next t) :
    t.shouldDraw = (Instr.isDraw i || s.shouldDraw) := by
  cases i with
  | call nnn =>
    rcases exec_call_cases nnn s with ⟨_, hnext⟩ | ⟨-, hfault⟩
    · rw [hnext] at h; cases h; rfl
    · rw [hfault] at h; cases h
  | ret =>
    rcases exec_ret_cases s with ⟨_, hnext⟩ | ⟨-, hfault⟩
    · rw [hnext] at h; cases h; rfl
    · rw [hfault] at h; cases h
  | drw | ldB | stRegs | ldRegs => cases withSpan_next h; rfl
  | _ => cases h; rfl

@[simp] theorem State.shouldDraw_tickIf (s : State) (c : Bool) : (s.tickIf c).shouldDraw = s.shouldDraw := by
  rw [State.tickIf_eq]

/-- No step clears `should_draw` (R188). -/
theorem cycle_keeps_shouldDraw {p : Params} {s t : State} (h : cycle p s = .next t)
    (hdraw : s.shouldDraw = true) : t.shouldDraw = true := by
  rcases cycle_next h with ⟨-, rfl⟩ | ⟨i, u, -, -, -, he, rfl⟩
  · rw [State.shouldDraw_tickIf, hdraw]
  · rw [State.shouldDraw_tickIf, exec_shouldDraw he, hdraw, Bool.or_true]

theorem transact_step_keeps_shouldDraw (p : Params) {s : State} (hdraw : s.shouldDraw = true) :
    (transact p .step s).1.shouldDraw = true := by
  rw [transact, stepTransaction]
  split
  · rename_i hc
    exact cycle_keeps_shouldDraw hc hdraw
  · exact hdraw
  · exact hdraw

/-- A cell of the screen read from its row of the framebuffer (R17). -/
theorem State.cell_eq_getLsbD (s : State) {idx : Nat} (h : idx / 64 < 32) :
    s.cell idx = (s.fb[idx / 64]).getLsbD (idx % 64) := by
  rw [State.cell, Framebuffer.cell, Framebuffer.row, Vector.getElem?_eq_getElem h, Option.getD_some]

end Sys2Proof.Machine

namespace Sys2Proof.Safety

open Sys2Proof.Machine

/-- The step that is about to run an instruction that raises reports its error and leaves the state (R177). -/
theorem AboutToRun.transact_step_of_fault {i : Instr} {s : State} {f : Fault} (h : AboutToRun i s)
    (hf : exec i s = .fault f) (p : Params) : transact p .step s = (s, .error f) := by
  have hrunning : s.mode = .running := h.1
  apply Machine.transact_step_of_fault
  rw [cycle_of_nextInstr hrunning h.nextInstr_eq, hf]
  rfl

/-! ### Runs of calls -/

/-- A run that completes hands its state to the instructions after it (R92). -/
theorem runAll_append_of_next {is : List Instr} (js : List Instr) {s t : State} (h : runAll is s = .next t) :
    runAll (is ++ js) s = runAll js t := by
  induction is generalizing s with
  | nil => cases h; rfl
  | cons i is ih =>
    rw [runAll] at h
    split at h
    · rename_i u hu
      rw [List.cons_append, runAll_cons_of_next hu, ih h]
    · cases h
    · cases h

/-- Calls in a row that the stack has room for all complete, each one entry deeper (R103). -/
theorem runAll_calls (calls : List Addr) {s : State} (h : s.sp.val + calls.length ≤ 16) :
    ∃ t, runAll (calls.map Instr.call) s = .next t ∧ t.sp.val = s.sp.val + calls.length := by
  induction calls generalizing s with
  | nil => exact ⟨s, rfl, rfl⟩
  | cons nnn calls ih =>
    rw [List.length_cons] at h
    have hroom : s.sp.val + 1 + calls.length ≤ 16 := by omega
    rcases exec_call_cases nnn s with ⟨_, hnext⟩ | ⟨hfull, -⟩
    · rw [List.map_cons, runAll_cons_of_next hnext, List.length_cons, Nat.add_comm calls.length,
        ← Nat.add_assoc]
      exact ih hroom
    · omega

/-- The draw flag written and nothing else. -/
theorem frame_setShouldDraw (s : State) (b : Bool) : Frame [] [.drawFlag] s (s.setShouldDraw b) := by
  apply frame_of_fields <;> intros <;> simp_all

/-! ### The obligations -/

/-- Settles O6: dispatch rejects exactly the words no row matches, which are those of the table; an instruction that
is executed raises none of its errors as InvalidOpcode. -/
theorem unmatchedWordRaisesInvalidOpcode : Obligations.UnmatchedWordRaisesInvalidOpcode := by
  refine ⟨unmatched_iff_illegalWord, fun p s w hm hf => ?_⟩
  have hillegal : decode w = .error (.invalidOpcode w) ↔ illegalWord w = true :=
    (decode_invalid_iff_unmatched w).trans (unmatched_iff_illegalWord w)
  rcases cycle_of_fetch p hm hf with ⟨i, hd, hc⟩ | ⟨hd, hc⟩
  · refine ⟨fun hw => ?_, fun u hu => ?_⟩
    · rw [hillegal.2 hw] at hd
      cases hd
    · have hexec := Outcome.tickIf_fault_iff.1 (hc ▸ cycle_fault_of_transact_step hu)
      rcases exec_fault hexec with h | h | h <;> cases h
  · refine ⟨fun _ => transact_step_of_fault hc, fun u hu => ?_⟩
    have hraised := cycle_fault_of_transact_step hu
    rw [hc] at hraised
    cases hraised
    exact ⟨rfl, hillegal.1 hd⟩

/-- Settles O16: a push fails exactly at depth 16, and each of 16 calls from an empty stack goes one deeper. -/
theorem seventeenthNestedCallOverflows : Obligations.SeventeenthNestedCallOverflows := by
  refine ⟨exec_call_overflow_iff, fun p nnn s hrun hfull => ?_, fun calls nnn s hempty hlen => ?_⟩
  · exact hrun.transact_step_of_fault ((exec_call_overflow_iff nnn s).2 hfull) p
  · obtain ⟨t, ht, hsp⟩ := runAll_calls calls (s := s) (by omega)
    have hfull : t.sp.val = 16 := by omega
    refine ⟨⟨t, ht, hfull⟩, ?_⟩
    rw [List.map_append, runAll_append_of_next _ ht, List.map_singleton, runAll,
      (exec_call_overflow_iff nnn t).2 hfull]

/-- Settles O51: `load_program` compares the length with 3584, and no error of a step is RomTooLarge. -/
theorem romTooLargeIsRaisedByLoadProgramAlone : Obligations.RomTooLargeIsRaisedByLoadProgramAlone := by
  refine ⟨fun p bytes s => ?_, fun p s h => ?_⟩
  · rw [transact]
    rcases loadProgram_cases bytes s with ⟨hle, hload⟩ | ⟨hgt, hload⟩
    · rw [hload]
      refine ⟨fun hgt => by omega, fun _ => rfl, fun hlen hwf a hlo hhi => ?_⟩
      have hfits : 0x200 + bytes.length ≤ Config.memSize := Nat.le_of_eq (by rw [hlen])
      rw [State.readByte, State.mem_setMem, Memory.read_store s.mem 0x200 bytes a hwf hfits, if_pos (by omega)]
    · exact ⟨fun _ => hload, fun hle => by omega, fun hlen => by omega⟩
  · rcases cycle_fault (cycle_fault_of_transact_step h) with ⟨i, -, he⟩ | hout | ⟨w, hinv⟩
    · rcases exec_fault he with h | h | h <;> cases h
    · cases hout
    · cases hinv

/-- Settles O52: the read answers the rows as they are, the flag is the one piece `take_draw_flag` writes, and a step
only ever sets it. -/
theorem frameReadAndDrawFlag : Obligations.FrameReadAndDrawFlag := by
  refine ⟨fun p s => ⟨s.fb, rfl, fun i h => ?_⟩, fun p s => ?_, fun p s => transact_step_keeps_shouldDraw p⟩
  · exact s.cell_eq_getLsbD (Nat.div_lt_of_lt_mul h)
  · exact ⟨s.setShouldDraw false, rfl, rfl, rfl, frame_setShouldDraw s false⟩

/-- Settles O18: a pop fails exactly at depth 0. -/
theorem retUnderflowsOnEmptyStack : Obligations.RetUnderflowsOnEmptyStack :=
  ⟨exec_ret_underflow_iff, fun p s hrun hempty =>
    hrun.transact_step_of_fault ((exec_ret_underflow_iff s).2 hempty) p⟩

/-- Settles O53: the transaction and the step outcome both read the one signal, the step's in the state it leaves. -/
theorem soundActiveIsSoundTimerAboveZero : Obligations.SoundActiveIsSoundTimerAboveZero := by
  refine ⟨fun p s => Prod.ext rfl (transact_isSoundActive_answer p s), fun p s t d a h => ?_⟩
  rw [transact_step_outcome h]
  rfl

end Sys2Proof.Safety
end

section
/-! PROOFS. The opcode map as a whole (30_encoding.md R62, R64, R65): which rows overlap, that the decoder undoes
the encoder, and that the encoder undoes the decoder. -/

namespace Sys2Proof

open Safety

/-! ### Which row is the first -/

/-- No two different literals stand at one place of two patterns (R64). -/
def literalsAgree : Option Nibble → Option Nibble → Bool
  | some u, some v => u == v
  | some _, none => true
  | none, some _ => true
  | none, none => true

theorem rowsOverlap_eq (r q : Row) : rowsOverlap r q =
    (literalsAgree r.n0 q.n0 && literalsAgree r.n1 q.n1 && literalsAgree r.n2 q.n2 && literalsAgree r.n3 q.n3) := rfl

theorem literalsAgree_of_literalMatches {a b : Option Nibble} {n : Nibble} (ha : literalMatches a n = true)
    (hb : literalMatches b n = true) : literalsAgree a b = true := by
  cases a <;> cases b <;> simp_all [literalMatches, literalsAgree]

/-- Rows that match a common word overlap. -/
theorem rowsOverlap_of_rowMatches {r q : Row} {w : Word} (hr : rowMatches r w = true)
    (hq : rowMatches q w = true) : rowsOverlap r q = true := by
  simp only [rowMatches, Bool.and_eq_true] at hr hq
  obtain ⟨⟨⟨hr0, hr1⟩, hr2⟩, hr3⟩ := hr
  obtain ⟨⟨⟨hq0, hq1⟩, hq2⟩, hq3⟩ := hq
  rw [rowsOverlap_eq, literalsAgree_of_literalMatches hr0 hq0, literalsAgree_of_literalMatches hr1 hq1,
    literalsAgree_of_literalMatches hr2 hq2, literalsAgree_of_literalMatches hr3 hq3]
  rfl

/-- The opcode map pair by pair. -/
theorem rowsOverlap_table : ∀ b a : Fin opcodeTable.length, a < b →
    (rowsOverlap opcodeTable[a] opcodeTable[b] = true ↔ b.val = 2) := by
  decide

/-- Of two different rows that overlap the later one is SYS, the third (R64). -/
theorem rowsOverlap_iff_later_sys {a b : Nat} (hb : b < opcodeTable.length) (hab : a < b) :
    rowsOverlap (opcodeTable[a]'(Nat.lt_trans hab hb)) opcodeTable[b] = true ↔ b = 2 :=
  rowsOverlap_table ⟨b, hb⟩ ⟨a, Nat.lt_trans hab hb⟩ hab

/-- The two rows before SYS match the words 00E0 and 00EE alone (R64). -/
theorem eq_cls_or_ret_of_rowMatches {a : Nat} {w : Word} (h : a < 2)
    (hm : rowMatches (opcodeTable[a]'(Nat.lt_trans h (by decide))) w = true) : w = 0x00E0#16 ∨ w = 0x00EE#16 := by
  match a, h with
  | 0, _ => exact .inl (BitVec.eq_of_toNat_eq (of_decide_eq_true ((rowMatches_fixed_toNat _ _ w).symm.trans hm)))
  | 1, _ => exact .inr (BitVec.eq_of_toNat_eq (of_decide_eq_true ((rowMatches_fixed_toNat _ _ w).symm.trans hm)))

/-- Dispatch takes any row that matches, but for the two words SYS leaves to CLS and RET (R64, R83). -/
theorem decode_of_rowMatches {k : Nat} {w : Word} (hk : k < opcodeTable.length)
    (hm : rowMatches opcodeTable[k] w = true) (hsys : k = 2 → w ≠ 0x00E0#16 ∧ w ≠ 0x00EE#16) :
    decode w = .ok (opcodeTable[k].build (fieldsOf w)) := by
  have hfirst : opcodeTable.find? (rowMatches · w) = some opcodeTable[k] := by
    refine List.find?_eq_some_iff_getElem.2 ⟨hm, k, hk, rfl, fun j hj => ?_⟩
    by_contra hmatch
    have hj' : rowMatches opcodeTable[j] w = true := by simpa using hmatch
    have hk2 : k = 2 := (rowsOverlap_iff_later_sys hk hj).1 (rowsOverlap_of_rowMatches hj' hm)
    obtain ⟨hcls, hret⟩ := hsys hk2
    rcases eq_cls_or_ret_of_rowMatches (hk2 ▸ hj) hj' with h | h
    · exact hcls h
    · exact hret h
  rw [decode, hfirst]

/-! ### The decoder undoes the encoder -/

open Laws in
/-- The word of every instruction matches a row that builds it. -/
theorem encodedRow : ∀ i : Instr, EncodedRow.Statement i
  | .cls => EncodedRow.cls
  | .ret => EncodedRow.ret
  | .sys nnn => EncodedRow.sys nnn
  | .jp nnn => EncodedRow.jp nnn
  | .call nnn => EncodedRow.call nnn
  | .seImm x kk => EncodedRow.seImm x kk
  | .sneImm x kk => EncodedRow.sneImm x kk
  | .seReg x y => EncodedRow.seReg x y
  | .ldImm x kk => EncodedRow.ldImm x kk
  | .addImm x kk => EncodedRow.addImm x kk
  | .ldReg x y => EncodedRow.ldReg x y
  | .orReg x y => EncodedRow.orReg x y
  | .andReg x y => EncodedRow.andReg x y
  | .xorReg x y => EncodedRow.xorReg x y
  | .addReg x y => EncodedRow.addReg x y
  | .sub x y => EncodedRow.sub x y
  | .shr x y => EncodedRow.shr x y
  | .subn x y => EncodedRow.subn x y
  | .shl x y => EncodedRow.shl x y
  | .sneReg x y => EncodedRow.sneReg x y
  | .ldI nnn => EncodedRow.ldI nnn
  | .jpV0 nnn => EncodedRow.jpV0 nnn
  | .rnd x kk => EncodedRow.rnd x kk
  | .drw x y n => EncodedRow.drw x y n
  | .skp x => EncodedRow.skp x
  | .sknp x => EncodedRow.sknp x
  | .ldVxDt x => EncodedRow.ldVxDt x
  | .ldVxK x => EncodedRow.ldVxK x
  | .ldDtVx x => EncodedRow.ldDtVx x
  | .ldStVx x => EncodedRow.ldStVx x
  | .addI x => EncodedRow.addI x
  | .ldF x => EncodedRow.ldF x
  | .ldB x => EncodedRow.ldB x
  | .stRegs x => EncodedRow.stRegs x
  | .ldRegs x => EncodedRow.ldRegs x

/-- The row of SYS builds SYS, whose word is neither 00E0 nor 00EE when it is well-formed (R64). -/
theorem encode_sys_ne {nnn : Addr} (h : (Instr.sys nnn).wellFormed = true) :
    encode (.sys nnn) ≠ 0x00E0#16 ∧ encode (.sys nnn) ≠ 0x00EE#16 := by
  simp only [Instr.wellFormed, sysTargetOk, Bool.and_eq_true, bne_iff_ne] at h
  obtain ⟨hcls, hret⟩ := h
  refine ⟨fun he => hcls ?_, fun he => hret ?_⟩
  · rw [← nnn_encodeNNN 0x0#4 nnn, ← encode, he]
    rfl
  · rw [← nnn_encodeNNN 0x0#4 nnn, ← encode, he]
    rfl

/-- DECODE AFTER ENCODE (R62, R64). -/
theorem decode_encode {i : Instr} (hwf : i.wellFormed = true) : decode (encode i) = .ok i := by
  obtain ⟨r, hr, hm, hb⟩ := encodedRow i
  obtain ⟨k, hk, rfl⟩ := List.getElem_of_mem hr
  rw [decode_of_rowMatches hk hm, hb]
  rintro rfl
  have hi : i = .sys (fieldsOf (encode i)).nnn := hb.symm
  rw [hi] at hwf
  exact hi ▸ encode_sys_ne hwf

/-- A word that is the one the encoder writes decodes to the instruction. -/
theorem decode_of_eq_encode {w : Word} {i : Instr} (hw : w = encode i) (hwf : i.wellFormed = true) :
    decode w = .ok i := by
  rw [hw, decode_encode hwf]

theorem decodeBytes_encodeBytes {i : Instr} (hwf : i.wellFormed = true) :
    decodeBytes (encodeBytes i) = .ok (i, []) := by
  rw [encodeBytes, bytesOfWord, decodeBytes, wordOfBytes_bytesOfWord, decode_encode hwf]

/-! ### The encoder undoes the decoder -/

/-- What a row builds of a word it matches encodes to that word. -/
def RebuildsWord (r : Row) : Prop := ∀ w, rowMatches r w = true → encode (r.build (fieldsOf w)) = w

theorem rebuildsWord_nnn {m : Nibble} {f : Fields → Instr} (hf : ∀ q, encode (f q) = encodeNNN m q.nnn) :
    RebuildsWord (rowMajor m f) := by
  intro w hm
  rw [rowMatches_rowMajor, beq_iff_eq] at hm
  rw [build_rowMajor, hf, hm, encodeNNN_fields]

theorem rebuildsWord_xkk {m : Nibble} {f : Fields → Instr} (hf : ∀ q, encode (f q) = encodeXKK m q.x q.kk) :
    RebuildsWord (rowMajor m f) := by
  intro w hm
  rw [rowMatches_rowMajor, beq_iff_eq] at hm
  rw [build_rowMajor, hf, hm, fieldsOf_x, encodeXKK_fields]

theorem rebuildsWord_xyn {m : Nibble} {f : Fields → Instr}
    (hf : ∀ q, encode (f q) = wordOfNibbles m q.x q.y q.n) : RebuildsWord (rowMajor m f) := by
  intro w hm
  rw [rowMatches_rowMajor, beq_iff_eq] at hm
  rw [build_rowMajor, hf, hm, fieldsOf_x, fieldsOf_y, fieldsOf_n, wordOfNibbles_nibbles]

theorem rebuildsWord_xy {m low : Nibble} {f : Fields → Instr}
    (hf : ∀ q, encode (f q) = wordOfNibbles m q.x q.y low) : RebuildsWord (rowXY m low f) := by
  intro w hm
  rw [rowMatches_rowXY, Bool.and_eq_true, beq_iff_eq, beq_iff_eq] at hm
  obtain ⟨hmajor, hlow⟩ := hm
  rw [build_rowXY, hf, hmajor, hlow, fieldsOf_x, fieldsOf_y, wordOfNibbles_nibbles]

theorem rebuildsWord_x {m a b : Nibble} {f : Fields → Instr}
    (hf : ∀ q, encode (f q) = wordOfNibbles m q.x a b) : RebuildsWord (rowX m a b f) := by
  intro w hm
  rw [rowMatches_rowX, Bool.and_eq_true, Bool.and_eq_true, beq_iff_eq, beq_iff_eq, beq_iff_eq] at hm
  obtain ⟨⟨hmajor, hhi⟩, hlo⟩ := hm
  rw [build_rowX, hf, hmajor, hhi, hlo, fieldsOf_x, wordOfNibbles_nibbles]

theorem rebuildsWord_fixed {m a b c : Nibble} {i : Instr} (hi : encode i = wordOfNibbles m a b c) :
    RebuildsWord ⟨some m, some a, some b, some c, fun _ => i⟩ := by
  intro w hm
  rw [rowMatches_fixed, Bool.and_eq_true, Bool.and_eq_true, Bool.and_eq_true, beq_iff_eq, beq_iff_eq, beq_iff_eq,
    beq_iff_eq] at hm
  obtain ⟨⟨⟨hm0, hm1⟩, hm2⟩, hm3⟩ := hm
  rw [hi, hm0, hm1, hm2, hm3, wordOfNibbles_nibbles]

/-- Every row of the opcode map, each by its format (R62, R65). -/
theorem rebuildsWord_opcodeTable : ∀ r ∈ opcodeTable, RebuildsWord r := by
  simp only [opcodeTable, List.forall_mem_append]
  refine ⟨⟨⟨?control, ?alu⟩, ?mixed⟩, ?f⟩
  case control =>
    simp only [rowsControl, List.forall_mem_cons, List.not_mem_nil]
    exact ⟨rebuildsWord_fixed rfl, rebuildsWord_fixed rfl, rebuildsWord_nnn fun _ => rfl,
      rebuildsWord_nnn fun _ => rfl, rebuildsWord_nnn fun _ => rfl, rebuildsWord_xkk fun _ => rfl,
      rebuildsWord_xkk fun _ => rfl, rebuildsWord_xy fun _ => rfl, nofun⟩
  case alu =>
    simp only [rowsAlu, List.forall_mem_cons, List.not_mem_nil]
    exact ⟨rebuildsWord_xkk fun _ => rfl, rebuildsWord_xkk fun _ => rfl, rebuildsWord_xy fun _ => rfl,
      rebuildsWord_xy fun _ => rfl, rebuildsWord_xy fun _ => rfl, rebuildsWord_xy fun _ => rfl,
      rebuildsWord_xy fun _ => rfl, rebuildsWord_xy fun _ => rfl, rebuildsWord_xy fun _ => rfl,
      rebuildsWord_xy fun _ => rfl, rebuildsWord_xy fun _ => rfl, rebuildsWord_xy fun _ => rfl, nofun⟩
  case mixed =>
    simp only [rowsMixed, List.forall_mem_cons, List.not_mem_nil]
    exact ⟨rebuildsWord_nnn fun _ => rfl, rebuildsWord_nnn fun _ => rfl, rebuildsWord_xkk fun _ => rfl,
      rebuildsWord_xyn fun _ => rfl, rebuildsWord_x fun _ => rfl, rebuildsWord_x fun _ => rfl, nofun⟩
  case f =>
    simp only [rowsF, List.forall_mem_cons, List.not_mem_nil]
    exact ⟨rebuildsWord_x fun _ => rfl, rebuildsWord_x fun _ => rfl, rebuildsWord_x fun _ => rfl,
      rebuildsWord_x fun _ => rfl, rebuildsWord_x fun _ => rfl, rebuildsWord_x fun _ => rfl,
      rebuildsWord_x fun _ => rfl, rebuildsWord_x fun _ => rfl, rebuildsWord_x fun _ => rfl, nofun⟩

/-- ENCODE AFTER DECODE (R62, R64). -/
theorem encode_of_decode {w : Word} {i : Instr} (h : decode w = .ok i) : encode i = w := by
  rw [decode] at h
  split at h
  · rename_i r hfind
    cases h
    exact rebuildsWord_opcodeTable r (List.mem_of_find?_eq_some hfind) w
      (List.find?_some (p := fun r => rowMatches r w) hfind)
  · cases h

/-- The decoder gives SYS neither for 00E0 nor for 00EE (R64). -/
theorem wellFormed_of_decode {w : Word} {i : Instr} (h : decode w = .ok i) : i.wellFormed = true := by
  have hword := encode_of_decode h
  cases i with
  | sys nnn =>
    have hcls : nnn ≠ 0x0E0#12 := by
      rintro rfl
      rw [← hword] at h
      cases h
    have hret : nnn ≠ 0x0EE#12 := by
      rintro rfl
      rw [← hword] at h
      cases h
    simp [Instr.wellFormed, sysTargetOk, hcls, hret]
  | _ => rfl

end Sys2Proof

namespace Sys2Proof.Safety

/-! ### The obligations -/

/-- Settles O2: the word of an instruction matches a row that builds it, and no earlier row but those of CLS and RET
could match as well. -/
theorem encodeThenDecodeGivesTheInstruction : Obligations.EncodeThenDecodeGivesTheInstruction :=
  fun _ hwf => ⟨decode_encode hwf, decodeBytes_encodeBytes hwf⟩

/-- Settles O3: every row builds an instruction with the row's literals and the word's fields. -/
theorem decodeThenEncodeGivesTheWord : Obligations.DecodeThenEncodeGivesTheWord :=
  fun _ _ h => ⟨wellFormed_of_decode h, encode_of_decode h⟩

/-- Settles O4: the map is finite, so its pairs of rows are compared one by one. -/
theorem onlySysOverlapsOtherRows : Obligations.OnlySysOverlapsOtherRows := by
  refine ⟨rfl, fun a b r q ha hb hab => ?_⟩
  obtain ⟨_, rfl⟩ := List.getElem?_eq_some_iff.1 ha
  obtain ⟨hlt, rfl⟩ := List.getElem?_eq_some_iff.1 hb
  exact rowsOverlap_iff_later_sys hlt hab

/-- Settles O1: each word is dispatched as it stands. -/
theorem writtenOutWordsDecode : Obligations.WrittenOutWordsDecode := by
  unfold Obligations.WrittenOutWordsDecode
  decide

end Sys2Proof.Safety
end

section
/-! PROOFS. What an instruction that completes leaves behind: the inversions of CALL, RET and the span check, how a
change of state passes through an instruction, and the frames of the writes the instructions are made of. -/

namespace Sys2Proof.Machine

/-! ### Calls, returns and spans -/

theorem exec_call_of_lt (nnn : Addr) {s : State} (hlt : s.sp.val < 16) : exec (.call nnn) s = .next
    ((s.setStack (s.stack.set s.sp.val (s.pc + 2#16) hlt) ⟨s.sp.val + 1, by omega⟩).setPc (addrOf nnn)) := by
  rcases exec_call_cases nnn s with ⟨_, hnext⟩ | ⟨hfull, -⟩
  · exact hnext
  · omega

theorem exec_ret_of_pos {s : State} (hpos : 0 < s.sp.val) : exec .ret s = .next
    ((s.setStack s.stack ⟨s.sp.val - 1, by omega⟩).setPc (s.stack[s.sp.val - 1]'(by omega))) := by
  rcases exec_ret_cases s with ⟨_, hnext⟩ | ⟨hempty, -⟩
  · exact hnext
  · omega

/-- A CALL that completes had room on the stack (R103). -/
theorem exec_call_next {nnn : Addr} {s t : State} (h : exec (.call nnn) s = .next t) :
    ∃ hlt : s.sp.val < 16, t =
      (s.setStack (s.stack.set s.sp.val (s.pc + 2#16) hlt) ⟨s.sp.val + 1, by omega⟩).setPc (addrOf nnn) := by
  rcases exec_call_cases nnn s with ⟨hlt, hnext⟩ | ⟨-, hfault⟩
  · rw [hnext] at h
    cases h
    exact ⟨hlt, rfl⟩
  · rw [hfault] at h
    cases h

/-- A RET that completes had an entry to pop (R101). -/
theorem exec_ret_next {s t : State} (h : exec .ret s = .next t) :
    ∃ hpos : 0 < s.sp.val, t =
      (s.setStack s.stack ⟨s.sp.val - 1, by omega⟩).setPc (s.stack[s.sp.val - 1]'(by omega)) := by
  rcases exec_ret_cases s with ⟨hpos, hnext⟩ | ⟨-, hfault⟩
  · rw [hnext] at h
    cases h
    exact ⟨hpos, rfl⟩
  · rw [hfault] at h
    cases h

/-- An access that completes had its whole span in memory (R43). -/
theorem withSpan_next_fits {base count : Nat} {go : Result} {t : State} (h : withSpan base count go = .next t) :
    count = 0 ∨ base + count ≤ 4096 := by
  rw [withSpan_eq] at h
  split at h
  · assumption
  · cases h

/-! ### The registers Fx65 writes -/

/-- The state Fx65 leaves when its span is in memory (R145). -/
def State.loadRegs (s : State) (x : Reg) : State :=
  (s.setVAll (fillRegs s.v 0 (s.mem.load s.base (x.toNat + 1)))).advance

theorem State.getV_loadRegs (s : State) (x r : Reg) :
    (s.loadRegs x).getV r = if r.toNat ≤ x.toNat then s.readByte (s.base + r.toNat) else s.getV r := by
  rw [State.loadRegs, State.getV_advance, State.getV_setVAll, getElem_fillRegs, Memory.length_load]
  by_cases h : r.toNat ≤ x.toNat
  · rw [if_pos h, if_pos (by omega), Nat.sub_zero, Memory.getD_load _ _ _ _ (by omega), State.readByte]
  · rw [if_neg h, if_neg (by omega), State.getV]

end Sys2Proof.Machine

namespace Sys2Proof.Safety

open Sys2Proof.Machine

/-! ### Frames -/

/-- A frame does not speak of `PC`. -/
theorem Frame.setPc {regs : List Reg} {parts : List Part} {s t : State} (h : Frame regs parts s t) (w : Word) :
    Frame regs parts s (t.setPc w) := by
  obtain ⟨hregs, hparts⟩ := h
  refine ⟨hregs, fun part hpart => ?_⟩
  have hsame := hparts part hpart
  cases part <;> exact hsame

theorem Frame.advance {regs : List Reg} {parts : List Part} {s t : State} (h : Frame regs parts s t) :
    Frame regs parts s t.advance := h.setPc _

theorem frame_setStack (s : State) (k : Vector Word 16) (n : Fin 17) : Frame [] [.stack] s (s.setStack k n) := by
  apply frame_of_fields <;> intros <;> simp_all

theorem frame_setMem (s : State) (m : Memory) : Frame [] [.memory] s (s.setMem m) := by
  apply frame_of_fields <;> intros <;> simp_all

theorem frame_setFb (s : State) (fb : Framebuffer) : Frame [] [.framebuffer] s (s.setFb fb) := by
  apply frame_of_fields <;> intros <;> simp_all

theorem frame_enterWait (s : State) (x : Reg) : Frame [] [.waiting] s (s.enterWait x) := by
  apply frame_of_fields <;> intros <;> simp_all

theorem frame_setKeyAt (s : State) (k : Nibble) (b : Bool) : Frame [] [.keypad] s (s.setKeyAt k b) := by
  apply frame_of_fields <;> intros <;> simp_all

theorem frame_tick (s : State) : Frame [] [.delay, .sound] s s.tick := by
  apply frame_of_fields <;> intros <;> simp_all

/-- The writes of a draw: the picture, `VF` and the draw flag (R151). -/
theorem frame_draw (s : State) (fb : Framebuffer) (b : Byte) :
    Frame [regF] [.framebuffer, .drawFlag] s (((s.setFb fb).setV regF b).setShouldDraw true) := by
  apply frame_of_fields <;> intros <;> simp_all [State.getV_setV]

/-- A whole register file written, and no other piece of state. -/
theorem samePart_setVAll (s : State) (v : Vector Byte 16) (part : Part) : SamePart part s (s.setVAll v).advance := by
  cases part <;> simp [SamePart, State.readByte, State.cell, State.keyAt]

/-- The draw of Cxkk: the register and the count of draws (R131). -/
theorem frame_rndWith (r : Byte) (x : Reg) (kk : Byte) (s : State) : Frame [x] [.draws] s (rndWith r x kk s) := by
  apply frame_of_fields <;> intros <;> simp_all [rndWith, State.getV_setV]

/-- A press that ends a wait (R187). -/
theorem frame_keyPress (s : State) (k : Nibble) (b : Byte) :
    Frame [s.waitX] [.keypad, .waiting] s (((s.setKeyAt k true).setV s.waitX b).advance).leaveWait := by
  apply frame_of_fields <;> intros <;> simp_all [State.getV_setV]

end Sys2Proof.Safety
end

section
/-! PROOFS. The invariant of the machine (10_state.md sections 4, 5 and 13): each of its four parts through one
instruction, then through the cycle, every host transaction and every sequence of them. -/

namespace Sys2Proof.Machine

/-! ### One instruction -/

/-- Two past an address a word is fetched from is far below the bound on `PC` (R13). -/
theorem toNat_add_two_le {w : Word} (h : w.toNat ≤ 4094) : (w + 2#16).toNat ≤ 0x10FE := by
  rw [toNat_add_two w (by omega)]
  omega

theorem toNat_skip_le {w : Word} (h : w.toNat ≤ 4094) (c : Bool) :
    (w + if c then 4#16 else 2#16).toNat ≤ 0x10FE := by
  cases c with
  | false => exact toNat_add_two_le h
  | true =>
    rw [if_pos rfl, toNat_add_four w (by omega)]
    omega

theorem toNat_addrOf_le (nnn : Addr) : (addrOf nnn).toNat ≤ 0x10FE := by
  rw [toNat_addrOf]
  omega

/-- 0x10FE is what Bnnn reaches with the highest address and the highest register (R108). -/
theorem toNat_addrPlus_le (nnn : Addr) (b : Byte) : (addrPlus nnn b).toNat ≤ 0x10FE := by
  rw [toNat_addrPlus]
  omega

/-- Every return address in use is at most 4096 (R103). -/
def ReturnAddressesLe (s : State) : Prop := ∀ (k : Nat) (h : k < 16), k < s.sp.val → s.stack[k].toNat ≤ 4096

/-- `PC` after an instruction fetched from memory, RET going to a return address in use (R84). -/
theorem exec_pc_le {i : Instr} {s t : State} (h : exec i s = .next t) (hpc : s.pc.toNat ≤ 4094)
    (hret : ReturnAddressesLe s) : t.pc.toNat ≤ 0x10FE := by
  cases i with
  | sys | jp => cases h; exact toNat_addrOf_le _
  | call =>
    obtain ⟨_, rfl⟩ := exec_call_next h
    exact toNat_addrOf_le _
  | ret =>
    obtain ⟨hpos, rfl⟩ := exec_ret_next h
    exact Nat.le_trans (hret _ (by omega) (by omega)) (by decide)
  | jpV0 => cases h; exact toNat_addrPlus_le _ _
  | seImm | sneImm | seReg | sneReg | skp | sknp => cases h; exact toNat_skip_le hpc _
  | ldVxK => cases h; exact Nat.le_trans hpc (by decide)
  | drw | ldB | stRegs | ldRegs => cases withSpan_next h; exact toNat_add_two_le hpc
  | _ => cases h; exact toNat_add_two_le hpc

/-- An instruction leaves memory, or stores a block that lies in memory (R43). -/
theorem exec_mem {i : Instr} {s t : State} (h : exec i s = .next t) :
    t.mem = s.mem ∨ ∃ bs, s.base + bs.length ≤ 4096 ∧ t.mem = s.mem.store s.base bs := by
  cases i with
  | call =>
    obtain ⟨_, rfl⟩ := exec_call_next h
    exact .inl rfl
  | ret =>
    obtain ⟨_, rfl⟩ := exec_ret_next h
    exact .inl rfl
  | ldB x =>
    have hfits := withSpan_next_fits h
    cases withSpan_next h
    exact .inr ⟨_, by rw [length_bcdDigits]; omega, rfl⟩
  | stRegs x =>
    have hfits := withSpan_next_fits h
    cases withSpan_next h
    exact .inr ⟨_, by rw [State.length_regsUpTo]; omega, rfl⟩
  | drw | ldRegs => cases withSpan_next h; exact .inl rfl
  | _ => cases h; exact .inl rfl

theorem exec_keeps_wf {i : Instr} {s t : State} (h : exec i s = .next t) (hwf : Memory.wf s.mem = true) :
    Memory.wf t.mem = true := by
  rcases exec_mem h with hmem | ⟨bs, hfits, hmem⟩
  · rw [hmem, hwf]
  · rw [hmem, Memory.wf_store s.mem s.base bs hwf hfits]

/-- CALL pushes an address at most 4096, RET takes one off, and nothing else touches the stack (R101, R103). -/
theorem exec_keeps_returnAddressesLe {i : Instr} {s t : State} (h : exec i s = .next t) (hpc : s.pc.toNat ≤ 4094)
    (hret : ReturnAddressesLe s) : ReturnAddressesLe t := by
  cases i with
  | call =>
    obtain ⟨hlt, rfl⟩ := exec_call_next h
    intro k hk hlive
    have hlive : k < s.sp.val + 1 := hlive
    change ((s.stack.set s.sp.val (s.pc + 2#16) hlt)[k]).toNat ≤ 4096
    by_cases hnew : s.sp.val = k
    · subst hnew
      rw [Vector.getElem_set_self, toNat_add_two _ (by omega)]
      omega
    · rw [Vector.getElem_set_ne hlt hk hnew]
      exact hret k hk (by omega)
  | ret =>
    obtain ⟨hpos, rfl⟩ := exec_ret_next h
    intro k hk hlive
    have hlive : k < s.sp.val - 1 := hlive
    exact hret k hk (by omega)
  | drw | ldB | stRegs | ldRegs => cases withSpan_next h; exact hret
  | _ => cases h; exact hret

/-- Only Fx0A enters a wait, and it leaves `PC` (R163). -/
theorem exec_mode {i : Instr} {s t : State} (h : exec i s = .next t) :
    t.mode = s.mode ∨ (t.mode = .awaitingKey ∧ t.pc = s.pc) := by
  cases i with
  | call =>
    obtain ⟨_, rfl⟩ := exec_call_next h
    exact .inl rfl
  | ret =>
    obtain ⟨_, rfl⟩ := exec_ret_next h
    exact .inl rfl
  | ldVxK => cases h; exact .inr ⟨rfl, rfl⟩
  | drw | ldB | stRegs | ldRegs => cases withSpan_next h; exact .inl rfl
  | _ => cases h; exact .inl rfl

/-! ### The step as a transaction -/

/-- The state a step leaves: the cycle's, or the one it found (R177). -/
theorem transact_step_state (p : Params) (s : State) :
    cycle p s = .next (transact p .step s).1 ∨ (transact p .step s).1 = s := by
  rw [transact, stepTransaction]
  split
  · rename_i hc
    exact .inl hc
  · exact .inr rfl
  · exact .inr rfl

end Sys2Proof.Machine

namespace Sys2Proof.Safety

open Sys2Proof.Machine

/-! ### The invariant -/

/-- The invariant does not speak of the timers. -/
theorem Inv.tickIf {s : State} (h : Inv s) (c : Bool) : Inv (s.tickIf c) := by
  cases c <;> exact h

/-- An instruction executed where it was fetched keeps the invariant. -/
theorem Inv.exec {i : Instr} {s t : State} (h : Inv s) (hrunning : s.mode = .running) (hpc : s.pc.toNat ≤ 4094)
    (he : exec i s = .next t) : Inv t := by
  obtain ⟨hwf, -, hret, -⟩ := h
  refine ⟨exec_keeps_wf he hwf, exec_pc_le he hpc hret, exec_keeps_returnAddressesLe he hpc hret, fun hwait => ?_⟩
  rcases exec_mode he with hmode | ⟨-, hsame⟩
  · rw [hmode, hrunning] at hwait
    cases hwait
  · rw [hsame]
    exact hpc

theorem Inv.cycle {p : Params} {s t : State} (h : Inv s) (hc : cycle p s = .next t) : Inv t := by
  rcases cycle_next hc with ⟨-, rfl⟩ | ⟨i, u, hrunning, hpc, -, he, rfl⟩
  · exact h.tickIf _
  · exact (h.exec hrunning hpc he).tickIf _

/-- The font lies in memory, nothing is on the stack and no wait is on (R200). -/
theorem inv_reset (p : Params) (s : State) : Inv (resetTransaction p s) := by
  have hwf : Memory.wf (Memory.store [] Config.fontBase (fontBytes p.font)) = true :=
    Memory.wf_store [] Config.fontBase _ rfl (by rw [length_fontBytes]; decide)
  have hpc : (0x200#16 : Word).toNat ≤ 0x10FE := by decide
  exact ⟨hwf, hpc, fun _ _ hlive => absurd hlive (Nat.not_lt_zero _), nofun⟩

theorem Inv.loadProgram {s : State} (h : Inv s) (bytes : List Byte) : Inv (loadProgram bytes s).1 := by
  rcases loadProgram_cases bytes s with ⟨hle, hload⟩ | ⟨-, hload⟩
  · obtain ⟨hwf, hrest⟩ := h
    rw [hload]
    exact ⟨Memory.wf_store s.mem 0x200 bytes hwf (Nat.add_le_add_left hle 0x200), hrest⟩
  · rw [hload]
    exact h

/-- A press moves `PC` on from an address that was fetched (R187). -/
theorem Inv.setKey {s : State} (h : Inv s) (k : Nibble) (pressed : Bool) : Inv (setKey k pressed s) := by
  obtain ⟨hwf, hpc, hret, hwait⟩ := h
  rcases setKey_cases k pressed s with ⟨-, hmode, hset⟩ | ⟨-, hset⟩
  · rw [hset]
    exact ⟨hwf, toNat_add_two_le (hwait hmode), hret, nofun⟩
  · rw [hset]
    exact ⟨hwf, hpc, hret, hwait⟩

theorem Inv.transact {s : State} (h : Inv s) (p : Params) (a : Transaction) : Inv (transact p a s).1 := by
  cases a with
  | reset => exact inv_reset p s
  | loadProgram bytes => exact h.loadProgram bytes
  | step =>
    rcases transact_step_state p s with hc | hsame
    · exact h.cycle hc
    · rwa [hsame]
  | setKey k pressed => exact h.setKey k pressed
  | tickTimers | readFramebuffer | takeDrawFlag | isSoundActive => exact h

theorem Inv.runTransactions {s : State} (h : Inv s) (p : Params) (as : List Transaction) :
    Inv (runTransactions p as s).1 := by
  induction as generalizing s with
  | nil => exact h
  | cons a as ih => exact ih (h.transact p a)

/-! ### The obligations -/

/-- Settles O55: a cycle is the idle tick, or an instruction from an address at most 4094 and then the tick. -/
theorem invariantKeptByEveryStep : Obligations.InvariantKeptByEveryStep :=
  ⟨fun _ _ h hc => h.cycle hc, fun _ _ _ h hc => h.cycle hc⟩

/-- Settles O56: transaction by transaction, and along the list. -/
theorem invariantKeptByEveryTransaction : Obligations.InvariantKeptByEveryTransaction :=
  ⟨fun p a _ h => h.transact p a, fun p as _ h => h.runTransactions p as⟩

/-- Settles O54: the state after a reset, and State.reset itself. -/
theorem invariantHoldsAtReset : Obligations.InvariantHoldsAtReset :=
  ⟨⟨Memory.wf_reset, by decide, fun _ _ hlive => absurd hlive (Nat.not_lt_zero _), nofun⟩, inv_reset⟩

end Sys2Proof.Safety
end

section
/-! PROOFS. Who writes what, and who reads what (10_state.md): each piece of state is written by its listed
instructions, the sound timer is read by none, and what lies at and above `SP` on the stack is seen by none. -/

namespace Sys2Proof.Safety

open Sys2Proof.Machine

/-! ### Writers -/

/-- What an instruction may write, by its rule (10_state.md section 1). -/
def WritesOnlyItsPieces (i : Instr) (s t : State) : Prop :=
  (∀ r, mayWriteReg i r = false → t.getV r = s.getV r) ∧ ∀ part, part ∉ mayWritePart i → SamePart part s t

/-- A frame with the instruction's own pieces, and with registers it may write. -/
theorem WritesOnlyItsPieces.of_frame {i : Instr} {regs : List Reg} {s t : State}
    (h : Frame regs (mayWritePart i) s t) (hregs : ∀ r ∈ regs, mayWriteReg i r = true) :
    WritesOnlyItsPieces i s t := by
  obtain ⟨hsame, hparts⟩ := h
  refine ⟨fun r hr => hsame r fun hmem => ?_, hparts⟩
  rw [hregs r hmem] at hr
  cases hr

theorem exec_writesOnlyItsPieces {i : Instr} {s t : State} (h : exec i s = .next t) :
    WritesOnlyItsPieces i s t := by
  cases i with
  | sys | jp | jpV0 => cases h; exact .of_frame (frame_setPc s _) nofun
  | seImm | sneImm | seReg | sneReg | skp | sknp => cases h; exact .of_frame (frame_skipIf s _) nofun
  | call =>
    obtain ⟨_, rfl⟩ := exec_call_next h
    exact .of_frame ((frame_setStack s _ _).setPc _) nofun
  | ret =>
    obtain ⟨_, rfl⟩ := exec_ret_next h
    exact .of_frame ((frame_setStack s _ _).setPc _) nofun
  | ldImm x | addImm x | ldReg x | orReg x | andReg x | xorReg x | ldVxDt x =>
    cases h; exact .of_frame (frame_setV s x _) (by simp [mayWriteReg])
  | addReg x | sub x | shr x | subn x | shl x =>
    cases h; exact .of_frame (frame_writeWithFlag s x _ _) (by simp [mayWriteReg])
  | rnd x => cases h; exact .of_frame (frame_rndWith _ x _ s) (by simp [mayWriteReg])
  | ldI | addI | ldF => cases h; exact .of_frame (frame_setI s _) nofun
  | ldDtVx => cases h; exact .of_frame (frame_setDt s _) nofun
  | ldStVx => cases h; exact .of_frame (frame_setSt s _) nofun
  | ldVxK x => cases h; exact .of_frame (frame_enterWait s x) nofun
  | cls => cases h; exact .of_frame (frame_setFb s _).advance nofun
  | ldB | stRegs => cases withSpan_next h; exact .of_frame (frame_setMem s _).advance nofun
  | drw => cases withSpan_next h; exact .of_frame (frame_draw s _ _).advance (by simp [mayWriteReg])
  | ldRegs x =>
    cases withSpan_next h
    refine ⟨fun r hr => ?_, fun part _ => samePart_setVAll s _ part⟩
    have habove : ¬ r.toNat ≤ x.toNat := of_decide_eq_false hr
    exact (s.getV_loadRegs x r).trans (if_neg habove)

theorem stack_notMem_mayWritePart {i : Instr} (hcall : ∀ nnn, i ≠ .call nnn) (hret : i ≠ .ret) :
    Part.stack ∉ mayWritePart i := by
  cases i with
  | call nnn => exact absurd rfl (hcall nnn)
  | ret => exact absurd rfl hret
  | _ => simp [mayWritePart]

theorem sound_notMem_mayWritePart {i : Instr} (hi : ∀ x, i ≠ .ldStVx x) : Part.sound ∉ mayWritePart i := by
  cases i with
  | ldStVx x => exact absurd rfl (hi x)
  | _ => simp [mayWritePart]

end Sys2Proof.Safety

namespace Sys2Proof.Machine

/-! ### A change of state that passes through an instruction -/

/-- The next state of a result changed; an error stays as it is. -/
def Result.mapNext (f : State → State) : Result → Result
  | .next s => .next (f s)
  | .fault r => .fault r
  | .refused r => .refused r

/-- Two memory accesses with one span whose states differ by `f` answer alike but for `f` (R43). -/
theorem mapNext_of_withSpan {f : State → State} {base count : Nat} {t : State} {r r' : Result}
    (h : r = withSpan base count (.next t)) (h' : r' = withSpan base count (.next (f t))) :
    r' = Result.mapNext f r := by
  rw [h, h', withSpan_eq, withSpan_eq]
  split <;> rfl

/-- No instruction reads `ST`: with another `ST` it does the same, but for Fx18, which overwrites it (R166). -/
theorem exec_setSt {i : Instr} (hi : ∀ x, i ≠ .ldStVx x) (s : State) (b : Byte) :
    exec i (s.setSt b) = Result.mapNext (·.setSt b) (exec i s) := by
  cases i with
  | ldStVx x => exact absurd rfl (hi x)
  | call nnn =>
    simp only [exec, execCall, State.pc_setSt, State.push_setSt]
    cases s.push (s.pc + 2#16) <;> rfl
  | ret =>
    simp only [exec, execRet, State.pop_setSt]
    cases s.pop <;> rfl
  | drw | ldB | stRegs | ldRegs => exact mapNext_of_withSpan rfl rfl
  | _ => rfl

/-- But for CALL and RET no instruction reads or writes the stack (R14). -/
theorem exec_setStack {i : Instr} (hcall : ∀ nnn, i ≠ .call nnn) (hret : i ≠ .ret) (s : State)
    (k : Vector Word 16) (n : Fin 17) :
    exec i (s.setStack k n) = Result.mapNext (·.setStack k n) (exec i s) := by
  cases i with
  | call nnn => exact absurd rfl (hcall nnn)
  | ret => exact absurd rfl hret
  | drw | ldB | stRegs | ldRegs => exact mapNext_of_withSpan rfl rfl
  | _ => rfl

/-! ### The step and the key transaction -/

theorem transact_step_of_next {p : Params} {s t : State} (h : cycle p s = .next t) :
    transact p .step s = (t, .outcome s.drawsNext t.soundActive) := by
  rw [transact, stepTransaction, h]

theorem transact_step_of_refused {p : Params} {s : State} {r : Refusal} (h : cycle p s = .refused r) :
    transact p .step s = (s, .refused r) := by
  rw [transact, stepTransaction, h]

/-- `set_key` neither reads nor writes the stack (R187). -/
theorem setKey_setStack (k : Nibble) (pressed : Bool) (s : State) (stack : Vector Word 16) (n : Fin 17) :
    setKey k pressed (s.setStack stack n) = (setKey k pressed s).setStack stack n := by
  simp only [setKey, State.mode_setStack]
  cases pressed <;> cases s.mode <;> rfl

theorem setKey_keeps_stack (k : Nibble) (pressed : Bool) (s : State) :
    (setKey k pressed s).sp = s.sp ∧ (setKey k pressed s).stack = s.stack := by
  rcases setKey_cases k pressed s with ⟨-, -, hset⟩ | ⟨-, hset⟩ <;> rw [hset] <;> exact ⟨rfl, rfl⟩

end Sys2Proof.Machine

namespace Sys2Proof.Safety

open Sys2Proof.Machine

/-! ### Stale stack entries -/

/-- States that differ at most in stale entries differ by another stack whose live entries are the same. -/
theorem SameLiveStack.exists_stack {s t : State} (h : SameLiveStack s t) :
    ∃ stack : Vector Word 16, t = s.setStack stack s.sp ∧
      ∀ (k : Nat) (hk : k < 16), k < s.sp.val → stack[k] = s.stack[k] :=
  ⟨t.stack, h⟩

theorem SameLiveStack.refl (s : State) : SameLiveStack s s := ⟨rfl, fun _ _ _ => rfl⟩

/-- What leaves the stack alone in both states leaves them alike. -/
theorem SameLiveStack.of_untouched {s s' : State} {stack : Vector Word 16}
    (hlive : ∀ (k : Nat) (hk : k < 16), k < s.sp.val → stack[k] = s.stack[k])
    (hsame : s'.sp = s.sp ∧ s'.stack = s.stack) : SameLiveStack s' (s'.setStack stack s.sp) := by
  obtain ⟨hsp, hstack⟩ := hsame
  rw [SameLiveStack, hsp, hstack]
  exact ⟨rfl, hlive⟩

/-- Two results alike but for stale stack entries. -/
inductive SameLiveResult : Result → Result → Prop where
  | next {s t : State} (h : SameLiveStack s t) : SameLiveResult (.next s) (.next t)
  | fault (f : Fault) : SameLiveResult (.fault f) (.fault f)
  | refused (r : Refusal) : SameLiveResult (.refused r) (.refused r)

/-- CALL overwrites the entry at `SP`, RET reads the one below it, and no other instruction sees the stack. -/
theorem SameLiveStack.exec {s t : State} (h : SameLiveStack s t) (i : Instr) :
    SameLiveResult (exec i s) (exec i t) := by
  obtain ⟨stack, rfl, hlive⟩ := h.exists_stack
  by_cases hcall : ∃ nnn, i = .call nnn
  · obtain ⟨nnn, rfl⟩ := hcall
    by_cases hlt : s.sp.val < 16
    · rw [exec_call_of_lt nnn hlt, exec_call_of_lt nnn (s := s.setStack stack s.sp) hlt]
      refine .next ⟨rfl, fun k hk hk' => ?_⟩
      have hk' : k < s.sp.val + 1 := hk'
      change (stack.set s.sp.val (s.pc + 2#16) hlt)[k] = (s.stack.set s.sp.val (s.pc + 2#16) hlt)[k]
      rw [Vector.getElem_set, Vector.getElem_set]
      by_cases hnew : s.sp.val = k
      · rw [if_pos hnew, if_pos hnew]
      · rw [if_neg hnew, if_neg hnew, hlive k hk (by omega)]
    · have hfull : s.sp.val = 16 := by omega
      rw [(exec_call_overflow_iff nnn s).2 hfull, (exec_call_overflow_iff nnn (s.setStack stack s.sp)).2 hfull]
      exact .fault _
  by_cases hret : i = .ret
  · subst hret
    by_cases hpos : 0 < s.sp.val
    · have htop : stack[s.sp.val - 1] = s.stack[s.sp.val - 1] := hlive _ (by omega) (by omega)
      rw [exec_ret_of_pos hpos, exec_ret_of_pos (s := s.setStack stack s.sp) hpos]
      refine .next ⟨congrArg ((s.setStack stack ⟨s.sp.val - 1, by omega⟩).setPc ·) htop, fun k hk hk' => ?_⟩
      have hk' : k < s.sp.val - 1 := hk'
      exact hlive k hk (by omega)
    · have hempty : s.sp.val = 0 := by omega
      rw [(exec_ret_underflow_iff s).2 hempty, (exec_ret_underflow_iff (s.setStack stack s.sp)).2 hempty]
      exact .fault _
  have hcall : ∀ nnn, i ≠ .call nnn := fun nnn hi => hcall ⟨nnn, hi⟩
  rw [exec_setStack hcall hret]
  cases he : Machine.exec i s with
  | next s' =>
    obtain ⟨-, hparts⟩ := exec_writesOnlyItsPieces he
    exact .next (.of_untouched hlive (hparts .stack (stack_notMem_mayWritePart hcall hret)))
  | fault f => exact .fault f
  | refused r => exact .refused r

theorem SameLiveStack.tickIf {s t : State} (h : SameLiveStack s t) (c : Bool) :
    SameLiveStack (s.tickIf c) (t.tickIf c) := by
  obtain ⟨stack, rfl, hlive⟩ := h.exists_stack
  cases c <;> exact ⟨rfl, hlive⟩

theorem SameLiveResult.tickIf {r r' : Result} (h : SameLiveResult r r') (c : Bool) :
    SameLiveResult (Outcome.tickIf c r) (Outcome.tickIf c r') := by
  cases h with
  | next h => exact .next (h.tickIf c)
  | fault f => exact .fault f
  | refused r => exact .refused r

/-- The front of the cycle does not see the stack. -/
theorem SameLiveStack.cycle {s t : State} (h : SameLiveStack s t) (p : Params) :
    SameLiveResult (cycle p s) (cycle p t) := by
  obtain ⟨stack, rfl, -⟩ := h.exists_stack
  have hfront : (s.setStack stack s.sp).nextInstr = s.nextInstr := rfl
  simp only [Machine.cycle, State.mode_setStack, hfront]
  cases s.mode with
  | awaitingKey => exact .next (h.tickIf _)
  | running =>
    cases s.nextInstr with
    | error f => exact .fault f
    | ok i => exact (h.exec i).tickIf _

theorem SameLiveStack.transact_step {s t : State} (h : SameLiveStack s t) (p : Params) :
    (transact p .step t).2 = (transact p .step s).2 ∧
      SameLiveStack (transact p .step s).1 (transact p .step t).1 := by
  have hcycle := h.cycle p
  generalize hs : Machine.cycle p s = r, ht : Machine.cycle p t = r' at hcycle
  obtain ⟨stack, rfl, -⟩ := h.exists_stack
  cases hcycle with
  | @next s' t' h' =>
    obtain ⟨stack', rfl, -⟩ := h'.exists_stack
    rw [transact_step_of_next hs, transact_step_of_next ht]
    exact ⟨rfl, h'⟩
  | fault f =>
    rw [transact_step_of_fault hs, transact_step_of_fault ht]
    exact ⟨rfl, h⟩
  | refused r =>
    rw [transact_step_of_refused hs, transact_step_of_refused ht]
    exact ⟨rfl, h⟩

theorem SameLiveStack.transact {s t : State} (h : SameLiveStack s t) (p : Params) (a : Transaction) :
    (transact p a t).2 = (transact p a s).2 ∧ SameLiveStack (transact p a s).1 (transact p a t).1 := by
  cases a with
  | step => exact h.transact_step p
  | reset =>
    obtain ⟨stack, rfl, -⟩ := h.exists_stack
    exact ⟨rfl, .refl _⟩
  | loadProgram bytes =>
    obtain ⟨stack, rfl, hlive⟩ := h.exists_stack
    rw [Machine.transact, Machine.transact, loadProgram, loadProgram]
    split
    · exact ⟨rfl, h⟩
    · exact ⟨rfl, rfl, hlive⟩
  | setKey k pressed =>
    obtain ⟨stack, rfl, hlive⟩ := h.exists_stack
    rw [Machine.transact, Machine.transact, setKey_setStack]
    exact ⟨rfl, .of_untouched hlive (setKey_keeps_stack k pressed s)⟩
  | tickTimers | readFramebuffer | takeDrawFlag | isSoundActive =>
    obtain ⟨stack, rfl, hlive⟩ := h.exists_stack
    exact ⟨rfl, rfl, hlive⟩

theorem SameLiveStack.runTransactions {s t : State} (h : SameLiveStack s t) (p : Params) (as : List Transaction) :
    (runTransactions p as t).2 = (runTransactions p as s).2 := by
  induction as generalizing s t with
  | nil => rfl
  | cons a as ih =>
    obtain ⟨hanswer, hafter⟩ := h.transact p a
    simp only [Machine.runTransactions, hanswer, ih hafter]

/-! ### The obligations -/

/-- Settles O59: two runs from such states stay alike but for stale entries, transaction by transaction. -/
theorem staleStackEntriesAreNeverSeen : Obligations.StaleStackEntriesAreNeverSeen :=
  ⟨fun p a _ _ h => h.transact p a, fun p as _ _ h => h.runTransactions p as⟩

/-- Settles O57: instruction by instruction, each by the frame of the writes it is made of. -/
theorem onlyTheListedInstructionsWriteEachPiece : Obligations.OnlyTheListedInstructionsWriteEachPiece :=
  fun _ _ _ h => exec_writesOnlyItsPieces h

/-- Settles O58: another `ST` passes through every instruction but Fx18, which overwrites it. -/
theorem noInstructionReadsTheSoundTimer : Obligations.NoInstructionReadsTheSoundTimer := by
  intro i s b
  refine ⟨fun t ht => ⟨fun hi => ⟨?_, ?_⟩, ?_⟩, fun f hf => ?_⟩
  · obtain ⟨-, hparts⟩ := exec_writesOnlyItsPieces ht
    exact hparts .sound (sound_notMem_mayWritePart hi)
  · rw [exec_setSt hi, ht]
    rfl
  · rintro ⟨x, rfl⟩
    rw [← ht]
    rfl
  · have hi : ∀ x, i ≠ .ldStVx x := by
      rintro x rfl
      cases hf
    rw [exec_setSt hi, hf]
    rfl

end Sys2Proof.Safety
end

section
/-! PROOFS. Control flow (41_control_flow.md): 0NNN, 00EE, 2nnn and Bnnn. -/

namespace Sys2Proof.Safety

open Sys2Proof.Machine

/-- Parts unchanged twice are unchanged (R92). -/
theorem Frame.trans {regs : List Reg} {parts : List Part} {s t u : State} (h : Frame regs parts s t)
    (h' : Frame regs parts t u) : Frame regs parts s u := by
  obtain ⟨hregs, hparts⟩ := h
  obtain ⟨hregs', hparts'⟩ := h'
  refine ⟨fun r hr => (hregs' r hr).trans (hregs r hr), fun part hpart => ?_⟩
  have hsame := hparts part hpart
  have hsame' := hparts' part hpart
  cases part with
  | stack | waiting => exact ⟨hsame'.1.trans hsame.1, hsame'.2.trans hsame.2⟩
  | memory | framebuffer | keypad => exact fun a => (hsame' a).trans (hsame a)
  | index | delay | sound | drawFlag | draws => exact hsame'.trans hsame

/-! ### The obligations -/

/-- Settles O13: the jump is one write of `PC`. -/
theorem sysJumpsAndPushesNothing : Obligations.SysJumpsAndPushesNothing := by
  intro nnn s
  refine ⟨fun hcls hret => decode_of_eq_encode (wordNNN_eq 0x0#4 nnn) ?_, _, rfl, toNat_addrOf nnn, frame_setPc s _⟩
  simp [Instr.wellFormed, sysTargetOk, hcls, hret]

/-- Settles O15: the push is one write of the stack at `SP`. -/
theorem callPushesReturnAddressAndJumps : Obligations.CallPushesReturnAddressAndJumps := by
  intro nnn s
  refine ⟨decode_of_eq_encode (wordNNN_eq 0x2#4 nnn) rfl, fun hlt => ⟨_, exec_call_of_lt nnn hlt, toNat_addrOf nnn,
    rfl, ?_, fun k hk hne => ?_, (frame_setStack s _ _).setPc _⟩⟩
  · exact Vector.getElem_set_self hlt
  · exact Vector.getElem_set_ne hlt hk hne.symm

/-- Settles O17: the pop reads the entry below `SP` and writes none. -/
theorem retPopsReturnAddress : Obligations.RetPopsReturnAddress :=
  ⟨decode_encode (i := .ret) rfl, fun s hpos =>
    ⟨_, exec_ret_of_pos hpos, rfl, rfl, rfl, (frame_setStack s _ _).setPc _⟩⟩

/-- Settles O19: RET pops the entry CALL pushed, which lies above every entry in use before. -/
theorem callThenRetResumesAfterTheCall : Obligations.CallThenRetResumesAfterTheCall := by
  intro nnn s hlt
  have hcall := exec_call_of_lt nnn hlt
  have hframe := (frame_setStack s (s.stack.set s.sp.val (s.pc + 2#16) hlt) ⟨s.sp.val + 1, by omega⟩).setPc
    (addrOf nnn)
  generalize ht : State.setPc _ (addrOf nnn) = t at hcall hframe
  have hpos : 0 < t.sp.val := by
    rw [← ht]
    exact Nat.succ_pos _
  have hret := exec_ret_of_pos hpos
  refine ⟨_, by rw [runAll_cons_of_next hcall, runAll_cons_of_next hret, runAll], ?_, ?_, fun k hk hlive => ?_,
    hframe.trans ((frame_setStack t _ _).setPc _)⟩
  · subst ht
    exact Vector.getElem_set_self hlt
  · subst ht
    rfl
  · subst ht
    exact Vector.getElem_set_ne hlt hk (Nat.ne_of_gt hlive)

/-- Settles O22: the sum is taken in 16 bits, which it fits. -/
theorem jpV0AddsRegisterZero : Obligations.JpV0AddsRegisterZero := fun nnn s =>
  ⟨decode_of_eq_encode (wordNNN_eq 0xB#4 nnn) rfl, _, rfl, toNat_addrPlus nnn _, toNat_addrPlus_le nnn _,
    frame_setPc s _⟩

end Sys2Proof.Safety
end

section
/-! PROOFS. The arithmetic that sets `VF` and the random byte (42_alu.md): 8xy4 to 8xy7, 8xyE and Cxkk. -/

namespace Sys2Proof.Machine

/-! ### The flags as numbers (R132) -/

theorem toNat_flagByte (b : Bool) : (flagByte b).toNat = if b then 1 else 0 := by
  cases b <;> rfl

theorem toNat_flagByte_carryOut (a b : Byte) :
    (flagByte (carryOut a b)).toNat = if 255 < a.toNat + b.toNat then 1 else 0 := by
  rw [toNat_flagByte, carryOut]
  simp only [decide_eq_true_eq, gt_iff_lt]

theorem toNat_flagByte_noBorrow (a b : Byte) :
    (flagByte (noBorrow a b)).toNat = if b.toNat ≤ a.toNat then 1 else 0 := by
  rw [toNat_flagByte, noBorrow]
  simp only [decide_eq_true_eq, ge_iff_le]

theorem toNat_flagByte_bitOutLow (a : Byte) : (flagByte (bitOutLow a)).toNat = a.toNat % 2 := by
  rw [toNat_flagByte, bitOutLow, BitVec.getLsbD, Nat.testBit_eq_decide_div_mod_eq]
  simp only [decide_eq_true_eq]
  split <;> omega

theorem toNat_flagByte_bitOutHigh (a : Byte) : (flagByte (bitOutHigh a)).toNat = a.toNat / 128 := by
  rw [toNat_flagByte, bitOutHigh, BitVec.getLsbD, Nat.testBit_eq_decide_div_mod_eq]
  simp only [decide_eq_true_eq]
  split <;> omega

/-- A difference of bytes is the difference of integers modulo 256 (R132). -/
theorem toNat_sub_eq_emod (a b : Byte) : ((a - b).toNat : Int) = (a.toNat - b.toNat : Int) % 256 := by
  rw [BitVec.toNat_sub]
  omega

end Sys2Proof.Machine

namespace Sys2Proof.Safety

open Sys2Proof.Machine

/-- The spec of an instruction that writes a result to `V[x]`, then a flag to `VF`, and moves `PC` on (R133). -/
theorem next_of_writeWithFlag {i : Instr} {s : State} {x : Reg} {b : Byte} {c : Bool}
    (h : exec i s = .next (s.writeWithFlag x b c).advance) :
    ∃ t, exec i s = .next t ∧ t.getV 15#4 = flagByte c ∧ (x ≠ 15#4 → t.getV x = b) ∧ t.pc = s.pc + 2#16 ∧
      Frame [x, 15#4] [] s t := by
  refine ⟨_, h, ?_, fun hx => ?_, rfl, frame_writeWithFlag s x b c⟩
  · rw [State.getV_advance, State.getV_writeWithFlag, if_pos rfl]
  · rw [State.getV_advance, State.getV_writeWithFlag, if_neg hx, if_pos rfl]

/-! ### The obligations -/

/-- Settles O27: the byte is the sum in 8-bit arithmetic, the carry compares the sum of the numbers with 255. -/
theorem addRegSumAndCarry : Obligations.AddRegSumAndCarry := by
  intro x y s
  obtain ⟨t, ht, hflag, hv, hpc, hframe⟩ := next_of_writeWithFlag (i := .addReg x y) (s := s) rfl
  refine ⟨decode_of_eq_encode (wordXYN_eq 0x8#4 x y 0x4#4) rfl, t, ht, ?_, fun hx => ?_, hpc, hframe⟩
  · rw [hflag, toNat_flagByte_carryOut]
  · rw [hv hx, BitVec.toNat_add]

/-- Settles O28: each byte is a difference in 8-bit arithmetic, each flag compares the operands. -/
theorem subtractionsWrapAndReportNoBorrow : Obligations.SubtractionsWrapAndReportNoBorrow := by
  intro x y s
  refine ⟨decode_of_eq_encode (wordXYN_eq 0x8#4 x y 0x5#4) rfl, decode_of_eq_encode (wordXYN_eq 0x8#4 x y 0x7#4) rfl,
    ?_, ?_⟩
  · obtain ⟨t, ht, hflag, hv, hpc, hframe⟩ := next_of_writeWithFlag (i := .sub x y) (s := s) rfl
    refine ⟨t, ht, ?_, fun hx => ?_, hpc, hframe⟩
    · rw [hflag, toNat_flagByte_noBorrow]
    · rw [hv hx, toNat_sub_eq_emod]
  · obtain ⟨t, ht, hflag, hv, hpc, hframe⟩ := next_of_writeWithFlag (i := .subn x y) (s := s) rfl
    refine ⟨t, ht, ?_, fun hx => ?_, hpc, hframe⟩
    · rw [hflag, toNat_flagByte_noBorrow]
    · rw [hv hx, toNat_sub_eq_emod]

/-- Settles O29: a shift by one place halves or doubles the byte, and the bit that leaves is the remainder or the
quotient by 128. -/
theorem shiftsMoveOneBitIntoVF : Obligations.ShiftsMoveOneBitIntoVF := by
  intro x y s
  refine ⟨decode_of_eq_encode (wordXYN_eq 0x8#4 x y 0x6#4) rfl, decode_of_eq_encode (wordXYN_eq 0x8#4 x y 0xE#4) rfl,
    fun _ => ⟨rfl, rfl⟩, ?_, ?_⟩
  · obtain ⟨t, ht, hflag, hv, hpc, hframe⟩ := next_of_writeWithFlag (i := .shr x y) (s := s) rfl
    refine ⟨t, ht, ?_, fun hx => ?_, hpc, hframe⟩
    · rw [hflag, toNat_flagByte_bitOutLow]
    · rw [hv hx, BitVec.toNat_ushiftRight, Nat.shiftRight_one]
  · obtain ⟨t, ht, hflag, hv, hpc, hframe⟩ := next_of_writeWithFlag (i := .shl x y) (s := s) rfl
    refine ⟨t, ht, ?_, fun hx => ?_, hpc, hframe⟩
    · rw [hflag, toNat_flagByte_bitOutHigh]
    · rw [hv hx, BitVec.toNat_shiftLeft, Nat.shiftLeft_eq, Nat.pow_one]

/-- Settles O30: the draw is one write of `V[x]` and one count, whatever the byte. -/
theorem rndMasksAFreeByte : Obligations.RndMasksAFreeByte := by
  intro x kk s
  refine ⟨decode_of_eq_encode (wordXKK_eq 0xC#4 x kk) rfl, rfl, fun r => ⟨_, rfl, fun k => ?_, rfl, rfl,
    frame_rndWith r x kk s⟩⟩
  rw [rndWith, State.getV_advance, State.getV_countDraw, State.getV_setV_same, BitVec.getLsbD_and]

end Sys2Proof.Safety
end

section
/-! PROOFS. The index register and memory (43_index_memory.md): Fx1E, Fx29, Fx33, Fx55 and Fx65. -/

namespace Sys2Proof.Machine

/-! ### Block stores and loads from `I` -/

/-- The state Fx33 and Fx55 leave when their span is in memory: bytes stored from `I` on (R143, R144). -/
def State.storeBytes (s : State) (bs : List Byte) : State := (s.setMem (s.mem.store s.base bs)).advance

theorem State.readByte_storeBytes {s : State} {bs : List Byte} (hwf : Memory.wf s.mem = true)
    (hfits : s.base + bs.length ≤ 4096) (a : Nat) : (s.storeBytes bs).readByte a =
      if s.base ≤ a ∧ a < s.base + bs.length then bs.getD (a - s.base) 0#8 else s.readByte a :=
  Memory.read_store s.mem s.base bs a hwf hfits

theorem State.readByte_storeBytes_at {s : State} {bs : List Byte} (hwf : Memory.wf s.mem = true)
    (hfits : s.base + bs.length ≤ 4096) {k : Nat} (hk : k < bs.length) :
    (s.storeBytes bs).readByte (s.base + k) = bs.getD k 0#8 := by
  rw [State.readByte_storeBytes hwf hfits, if_pos (by omega), Nat.add_sub_cancel_left]

/-- Register `r` lies at `I + r` after Fx55 (R144). -/
theorem State.readByte_storeRegs {s : State} {x r : Reg} (hwf : Memory.wf s.mem = true)
    (hfits : s.i.toNat + x.toNat ≤ 4095) (hr : r.toNat ≤ x.toNat) :
    (s.storeBytes (s.regsUpTo x)).readByte (s.base + r.toNat) = s.getV r := by
  have hlen := s.length_regsUpTo x
  rw [State.readByte_storeBytes_at hwf (by rw [hlen, State.base]; omega) (by omega), State.getD_regsUpTo s x r hr]

theorem exec_ldB_of_fits (x : Reg) {s : State} (h : s.i.toNat + 2 ≤ 4095) :
    exec (.ldB x) s = .next (s.storeBytes (bcdDigits (s.getV x))) :=
  withSpan_of_fits (.inr (by rw [State.base]; omega))

theorem exec_stRegs_of_fits {x : Reg} {s : State} (h : s.i.toNat + x.toNat ≤ 4095) :
    exec (.stRegs x) s = .next (s.storeBytes (s.regsUpTo x)) :=
  withSpan_of_fits (.inr (by rw [State.base]; omega))

theorem exec_ldRegs_of_fits {x : Reg} {s : State} (h : s.i.toNat + x.toNat ≤ 4095) :
    exec (.ldRegs x) s = .next (s.loadRegs x) :=
  withSpan_of_fits (.inr (by rw [State.base]; omega))

end Sys2Proof.Machine

namespace Sys2Proof.Safety

open Sys2Proof.Machine

theorem sameOutside_storeBytes {s : State} {bs : List Byte} (hwf : Memory.wf s.mem = true)
    (hfits : s.base + bs.length ≤ 4096) : SameOutside s.base bs.length s (s.storeBytes bs) := by
  intro a ha
  rw [State.readByte_storeBytes hwf hfits, if_neg (by omega)]

theorem frame_storeBytes (s : State) (bs : List Byte) : Frame [] [.memory] s (s.storeBytes bs) :=
  (frame_setMem s _).advance

/-! ### The obligations -/

/-- Settles O32: each instruction is one write of `I`, with a 16-bit sum or with a product that fits 16 bits. -/
theorem indexArithmetic : Obligations.IndexArithmetic := by
  intro x s
  refine ⟨decode_of_eq_encode (wordX_eq 0xF#4 x 0x1#4 0xE#4) rfl,
    decode_of_eq_encode (wordX_eq 0xF#4 x 0x2#4 0x9#4) rfl, ?_, ?_⟩
  · obtain ⟨t, ht, hi, hpc, hframe⟩ := next_of_setI_advance (i := .addI x) (s := s) rfl
    exact ⟨t, ht, by rw [hi, toNat_indexPlus], hpc, hframe⟩
  · obtain ⟨t, ht, hi, hpc, hframe⟩ := next_of_setI_advance (i := .ldF x) (s := s) rfl
    exact ⟨t, ht, by rw [hi, toNat_glyphAddr, Nat.mul_comm], hpc, hframe⟩

/-- Settles O33: the three digits are stored from `I` on. -/
theorem ldBStoresDecimalDigits : Obligations.LdBStoresDecimalDigits := by
  intro x s
  refine ⟨decode_of_eq_encode (wordX_eq 0xF#4 x 0x3#4 0x3#4) rfl, fun hwf hspan => ?_⟩
  have hfits : s.base + (bcdDigits (s.getV x)).length ≤ 4096 := by
    rw [length_bcdDigits, State.base]
    omega
  have hdigit {k : Nat} (hk : k < 3) := State.readByte_storeBytes_at hwf hfits (k := k) hk
  refine ⟨_, exec_ldB_of_fits x hspan, ?_, ?_, ?_, sameOutside_storeBytes hwf hfits, rfl, frame_storeBytes s _⟩
  · exact congrArg BitVec.toNat (hdigit (k := 0) (by decide))
  · exact congrArg BitVec.toNat (hdigit (k := 1) (by decide))
  · exact congrArg BitVec.toNat (hdigit (k := 2) (by decide))

/-- Settles O34: the registers up to `x` are stored from `I` on. -/
theorem stRegsStoresRegistersUpToX : Obligations.StRegsStoresRegistersUpToX := by
  intro x s
  refine ⟨decode_of_eq_encode (wordX_eq 0xF#4 x 0x5#4 0x5#4) rfl, fun hwf hspan => ?_⟩
  have hlen := s.length_regsUpTo x
  have hfits : s.base + (s.regsUpTo x).length ≤ 4096 := by
    rw [hlen, State.base]
    omega
  exact ⟨_, exec_stRegs_of_fits hspan, fun r hr => State.readByte_storeRegs hwf hspan hr,
    hlen ▸ sameOutside_storeBytes hwf hfits, rfl, frame_storeBytes s _⟩

/-- Settles O35: the bytes from `I` on fill the registers up to `x`. -/
theorem ldRegsLoadsRegistersUpToX : Obligations.LdRegsLoadsRegistersUpToX := by
  intro x s
  refine ⟨decode_of_eq_encode (wordX_eq 0xF#4 x 0x6#4 0x5#4) rfl, fun hspan =>
    ⟨_, exec_ldRegs_of_fits hspan, fun r hr => ?_, fun r hr => ?_, rfl, fun part => samePart_setVAll s _ part⟩⟩
  · rw [State.getV_loadRegs, if_pos hr]
  · rw [State.getV_loadRegs, if_neg (Nat.not_le.2 hr)]

/-- Settles O37: the load reads back, from the `I` the store left, the bytes the store wrote. -/
theorem storeThenLoadRestoresRegisters : Obligations.StoreThenLoadRestoresRegisters := by
  intro x s v hwf hspan
  refine ⟨_, _, exec_stRegs_of_fits hspan, exec_ldRegs_of_fits hspan, fun r hr => ?_⟩
  rw [State.getV_loadRegs, if_pos hr]
  exact State.readByte_storeRegs hwf hspan hr

/-- Settles O38: the fetch reads the two bytes at `I` and `I + 1`, where the store left `V[0]` and `V[1]`. -/
theorem storedBytesAreFetchedNext : Obligations.StoredBytesAreFetchedNext := by
  intro x s hwf hx hi hspan
  have hpc : (s.storeBytes (s.regsUpTo x)).pc.toNat = s.base := by
    rw [State.base, hi]
    exact toNat_add_two s.pc (by omega)
  rcases State.fetch_cases (s.storeBytes (s.regsUpTo x)) with ⟨-, hfetch⟩ | ⟨hout, -⟩
  · refine ⟨_, _, exec_stRegs_of_fits hspan, hfetch, ?_⟩
    have h0 := State.readByte_storeRegs (r := 0#4) hwf hspan (Nat.zero_le _)
    have h1 := State.readByte_storeRegs (r := 1#4) hwf hspan hx
    rw [toNat_wordOfBytes, hpc]
    exact congrArg₂ (fun hi lo : Byte => 256 * hi.toNat + lo.toNat) h0 h1
  · rw [hpc, State.base] at hout
    omega

end Sys2Proof.Safety
end

section
/-! PROOFS. The display (44_display.md): 00E0 and Dxyn, once and twice in a row. -/

namespace Sys2Proof.Machine

/-! ### One draw -/

/-- The sprite bit a draw puts on cell `j` (R151). -/
def State.spriteOnCell (s : State) (x y : Reg) (n : Nibble) (j : Nat) : Bool :=
  spriteOn (s.getV x).toNat (s.getV y).toNat (s.mem.load s.base n.toNat) j

/-- The picture and the collision a draw leaves (R151). -/
def State.canvas (s : State) (x y : Reg) (n : Nibble) : Canvas :=
  drawRows (s.getV x).toNat (s.getV y).toNat (s.mem.load s.base n.toNat) ⟨s.fb, false⟩

/-- The state a draw leaves when its sprite is in memory (R151). -/
def State.draw (s : State) (x y : Reg) (n : Nibble) : State :=
  (((s.setFb (s.canvas x y n).fb).setV regF (flagByte (s.canvas x y n).collision)).setShouldDraw true).advance

theorem exec_drw_of_fits (x y : Reg) {n : Nibble} {s : State} (h : n = 0#4 ∨ s.i.toNat + (n.toNat - 1) ≤ 4095) :
    exec (.drw x y n) s = .next (s.draw x y n) :=
  withSpan_of_fits (sprite_fits h)

theorem length_sprite_le (s : State) (n : Nibble) : (s.mem.load s.base n.toNat).length ≤ 32 := by
  rw [Memory.length_load]
  omega

theorem State.cell_draw (s : State) (x y : Reg) (n : Nibble) (j : Nat) :
    (s.draw x y n).cell j = (s.cell j ^^ s.spriteOnCell x y n j) :=
  cell_drawRows _ _ _ _ (length_sprite_le s n) j

theorem State.collision_canvas (s : State) (x y : Reg) (n : Nibble) :
    (s.canvas x y n).collision = true ↔ ∃ j, s.spriteOnCell x y n j = true ∧ s.cell j = true := by
  rw [State.canvas, collision_drawRows _ _ _ _ (length_sprite_le s n)]
  simp only [Bool.false_eq_true, false_or]
  rfl

theorem State.getV_draw_flag (s : State) (x y : Reg) (n : Nibble) :
    (s.draw x y n).getV 15#4 = flagByte (s.canvas x y n).collision :=
  State.getV_setV_same _ _ _

theorem flagByte_eq_one_iff (b : Bool) : flagByte b = 1#8 ↔ b = true := by
  cases b <;> decide

/-- No sprite bit falls outside the screen (R152). -/
theorem lt_of_spriteOn {vx vy : Nat} {bs : List Byte} {j : Nat} (h : spriteOn vx vy bs j = true) : j < 2048 := by
  simp only [spriteOn, rowBit, Bool.and_eq_true, decide_eq_true_eq] at h
  obtain ⟨-, ⟨⟨⟨hj, -⟩, -⟩, -⟩, -⟩ := h
  exact hj

/-- Some cell of the engine is some pixel of the screen (R17). -/
theorem State.exists_spriteOnCell_iff (s : State) (x y : Reg) (n : Nibble) (lit : Nat → Prop) :
    (∃ j, s.spriteOnCell x y n j = true ∧ lit j) ↔ ∃ px py, px < 64 ∧ py < 32 ∧ lit (py * 64 + px) ∧
      Safety.spriteBit s s.base n.toNat (s.getV x).toNat (s.getV y).toNat px py = true := by
  constructor
  · rintro ⟨j, hj, hlit⟩
    have hlt := lt_of_spriteOn hj
    have hsplit : j = j / 64 * 64 + j % 64 := (Nat.div_add_mod' j 64).symm
    rw [hsplit] at hj hlit
    refine ⟨j % 64, j / 64, Nat.mod_lt j (by decide), by omega, hlit, ?_⟩
    rw [← spriteOn_load s _ _ _ _ _ _ (Nat.mod_lt j (by decide)) (by omega)]
    exact hj
  · rintro ⟨px, py, hx, hy, hlit, hbit⟩
    rw [← spriteOn_load s _ _ _ _ _ _ hx hy] at hbit
    exact ⟨py * 64 + px, hbit, hlit⟩

/-- A draw reports a collision exactly when a lit pixel has a 1 bit on it (R151). -/
theorem State.collision_canvas_iff (s : State) (x y : Reg) (n : Nibble) : (s.canvas x y n).collision = true ↔
    Safety.Collides s s.base n.toNat (s.getV x).toNat (s.getV y).toNat :=
  (s.collision_canvas x y n).trans (s.exists_spriteOnCell_iff x y n fun j => s.cell j = true)

/-- A draw whose coordinates are not `VF` leaves the next draw the same sprite at the same place (R151). -/
theorem State.spriteOnCell_draw (s : State) {x y : Reg} (hx : x ≠ 15#4) (hy : y ≠ 15#4) (n : Nibble) (j : Nat) :
    (s.draw x y n).spriteOnCell x y n j = s.spriteOnCell x y n j := by
  have hvx : (s.draw x y n).getV x = s.getV x := State.getV_setV_ne _ _ hx
  have hvy : (s.draw x y n).getV y = s.getV y := State.getV_setV_ne _ _ hy
  rw [State.spriteOnCell, hvx, hvy]
  rfl

end Sys2Proof.Machine

namespace Sys2Proof.Safety

open Sys2Proof.Machine

/-! ### The obligations -/

/-- Settles O39: the framebuffer is the one piece written. -/
theorem clsClearsTheFramebufferOnly : Obligations.ClsClearsTheFramebufferOnly :=
  ⟨decode_encode (i := .cls) rfl, fun s => ⟨_, rfl, cell_clear, rfl, (frame_setFb s _).advance⟩⟩

/-- Settles O40: the engine XORs the sprite cell by cell and its collision is a lit cell with a 1 bit on it. -/
theorem drwXorsTheSpriteAndReportsCollision : Obligations.DrwXorsTheSpriteAndReportsCollision := by
  intro x y n s
  refine ⟨decode_of_eq_encode (wordXYN_eq 0xD#4 x y n) rfl, fun hsprite => ⟨_, exec_drw_of_fits x y hsprite,
    fun px py hx hy => ?_, fun hcollides => ?_, fun hclear => ?_, rfl, rfl, (frame_draw s _ _).advance⟩⟩
  · rw [State.cell_draw, State.spriteOnCell, spriteOn_load s _ _ _ _ _ _ hx hy]
  · rw [State.getV_draw_flag, (s.collision_canvas_iff x y n).2 hcollides]
    rfl
  · rw [State.getV_draw_flag, Bool.eq_false_iff.2 fun h => hclear ((s.collision_canvas_iff x y n).1 h)]
    rfl

/-- Settles O41: both draws XOR the same sprite onto the same cells, so a cell under a 1 bit is lit for the second
draw exactly when it was not for the first. -/
theorem drawingTwiceRestoresTheFramebuffer : Obligations.DrawingTwiceRestoresTheFramebuffer := by
  intro x y n s hx hy hsprite
  have hfirst := exec_drw_of_fits x y hsprite
  have hsecond := exec_drw_of_fits x y (s := s.draw x y n) hsprite
  refine ⟨_, by rw [runAll_cons_of_next hfirst, runAll_cons_of_next hsecond, runAll], fun j => ?_, ?_⟩
  · rw [State.cell_draw, State.spriteOnCell_draw s hx hy, State.cell_draw, Bool.xor_assoc, Bool.xor_self,
      Bool.xor_false]
  · have hcell (j : Nat) : s.spriteOnCell x y n j = true ∧ (s.draw x y n).cell j = true ↔
        s.spriteOnCell x y n j = true ∧ s.cell j = false := by
      refine and_congr_right fun hbit => ?_
      rw [State.cell_draw, hbit, Bool.xor_true, Bool.not_eq_true']
    rw [State.getV_draw_flag, flagByte_eq_one_iff, State.collision_canvas]
    simp only [State.spriteOnCell_draw s hx hy, hcell]
    exact s.exists_spriteOnCell_iff x y n fun j => s.cell j = false

end Sys2Proof.Safety
end

section
/-! PROOFS. The keypad (45_keypad_timers.md): Ex9E, ExA1 and Fx0A. -/

namespace Sys2Proof.Safety

open Sys2Proof.Machine

/-- Settles O43: the key selected is the one numbered by the low nibble. -/
theorem keySkipsReadTheLowNibbleKey : Obligations.KeySkipsReadTheLowNibbleKey := by
  intro x k s hk
  have hkey : keyIndex (s.getV x) = k := BitVec.eq_of_toNat_eq (by rw [toNat_keyIndex, hk])
  refine ⟨decode_of_eq_encode (wordX_eq 0xE#4 x 0x9#4 0xE#4) rfl,
    decode_of_eq_encode (wordX_eq 0xE#4 x 0xA#4 0x1#4) rfl,
    ⟨_, rfl, ?_, frame_skipIf s _⟩, ⟨_, rfl, ?_, frame_skipIf s _⟩⟩
  · rw [hkey, State.pc_skipIf]
    cases s.keyAt k <;> rfl
  · rw [hkey, State.pc_skipIf]
    cases s.keyAt k <;> rfl

/-- Settles O47: the wait is the one piece written. -/
theorem ldVxKEntersTheWait : Obligations.LdVxKEntersTheWait := fun x s =>
  ⟨decode_of_eq_encode (wordX_eq 0xF#4 x 0x0#4 0xA#4) rfl, _, rfl, rfl, rfl, rfl, frame_enterWait s x⟩

end Sys2Proof.Safety
end

section
/-! PROOFS. The step and its errors (40_cycle.md, 60_exceptions.md sections 1 and 2): what a step runs, what it
reports, and which errors there are. -/

namespace Sys2Proof.Machine

/-! ### The cycle, mode by mode -/

/-- During a wait the cycle is the tick alone (R88). -/
theorem cycle_of_awaitingKey {s : State} (h : s.mode = .awaitingKey) (p : Params) :
    cycle p s = .next (s.tickIf p.tickInStep) := by
  simp only [cycle, h]

/-- From 4095 on there is nothing to fetch (R81, R172). -/
theorem cycle_of_fetch_outOfBounds {s : State} (hm : s.mode = .running) (hpc : 4095 ≤ s.pc.toNat) (p : Params) :
    cycle p s = .fault (.outOfBounds s.pc.toNat) := by
  simp only [cycle, hm, State.nextInstr, State.fetch_outOfBounds hpc, raise]

theorem Instr.isDraw_iff (i : Instr) : Instr.isDraw i = true ↔ ∃ x y n, i = .drw x y n := by
  cases i with
  | drw x y n => exact ⟨fun _ => ⟨x, y, n, rfl⟩, fun _ => rfl⟩
  | _ => exact ⟨nofun, nofun⟩

/-! ### Errors -/

/-- An access whose span leaves memory raises with the lowest address above 4095 (R43, R173). -/
theorem withSpan_of_not_fits {base count : Nat} (hcount : 0 < count) (h : 4096 < base + count) (go : Result) :
    withSpan base count go = .fault (.outOfBounds (max base 4096)) := by
  rw [withSpan_eq, if_neg (by omega)]

/-- A span check raises only when a byte of the span is above 4095 (R43). -/
theorem withSpan_fault_span {base count : Nat} {t : State} {f : Fault}
    (h : withSpan base count (.next t) = .fault f) :
    f = .outOfBounds (max base 4096) ∧ 0 < count ∧ 4096 < base + count := by
  refine ⟨withSpan_fault h, ?_⟩
  by_contra hfits
  rw [withSpan_of_fits (by omega)] at h
  cases h

/-- Every instruction has a meaning. -/
theorem exec_ne_refused (i : Instr) (s : State) (r : Refusal) : exec i s ≠ .refused r := by
  have hspan {base count : Nat} {t : State} : withSpan base count (.next t) ≠ .refused r := by
    rw [withSpan_eq]
    split <;> nofun
  cases i with
  | call nnn =>
    rcases exec_call_cases nnn s with ⟨_, hnext⟩ | ⟨-, hfault⟩
    · rw [hnext]; nofun
    · rw [hfault]; nofun
  | ret =>
    rcases exec_ret_cases s with ⟨_, hnext⟩ | ⟨-, hfault⟩
    · rw [hnext]; nofun
    · rw [hfault]; nofun
  | drw | ldB | stRegs | ldRegs => exact hspan
  | _ => nofun

end Sys2Proof.Machine

namespace Sys2Proof.Safety

open Sys2Proof.Machine

/-! ### The obligations -/

/-- Settles O5: the front of the cycle finds the instruction the bytes decode to, which the decoder builds
well-formed. -/
theorem stepRunsTheDecodedInstruction : Obligations.StepRunsTheDecodedInstruction := by
  intro p s i hrun
  have ⟨hrunning, _, hbytes⟩ := hrun
  refine ⟨wellFormed_of_decode (decode_of_decodeBytes_pair hbytes), ?_, ?_⟩
  · rw [cycle_of_nextInstr hrunning hrun.nextInstr_eq]
    cases exec i s <;> rfl
  · rw [step, cycle_of_nextInstr hrunning hrun.nextInstr_eq]
    cases exec i s <;> rfl

/-- Settles O7: the two halves of the fetch. -/
theorem fetchIsBigEndianOrOutOfBounds : Obligations.FetchIsBigEndianOrOutOfBounds := by
  refine ⟨fun s hpc => ?_, fun p s hm hpc => transact_step_of_fault (cycle_of_fetch_outOfBounds hm hpc p)⟩
  rcases State.fetch_cases s with ⟨-, hfetch⟩ | ⟨hout, -⟩
  · exact ⟨_, hfetch, toNat_wordOfBytes _ _⟩
  · omega

/-- Settles O8: the cycle is the tick alone, and the outcome is read after it. -/
theorem stepWhileAwaitingOnlyTicks : Obligations.StepWhileAwaitingOnlyTicks := by
  intro p s hwait
  have hdraws : s.drawsNext = false := by simp only [State.drawsNext, hwait]
  rw [transact_step_of_next (cycle_of_awaitingKey hwait p), hdraws, State.soundActive_eq]
  rfl

/-- Settles O10: the outcome speaks of the instruction the front of the cycle finds and of the state after the
tick. -/
theorem stepReportsDrawAndSound : Obligations.StepReportsDrawAndSound := by
  intro p s t i hrun ht
  have hrunning : s.mode = .running := hrun.1
  have hdraws : s.drawsNext = Instr.isDraw i := by simp only [State.drawsNext, hrunning, hrun.nextInstr_eq]
  refine ⟨Instr.isDraw i, ?_, Instr.isDraw_iff i⟩
  rw [transact_step_of_next (hrun.cycle_eq ht p), hdraws, State.soundActive_eq]
  rfl

/-- Settles O11: the step leaves the state it found, from which the next step does the same. -/
theorem failedStepChangesNothingAndRepeats : Obligations.FailedStepChangesNothingAndRepeats := by
  intro p s f hf
  have hstep := transact_step_of_fault (cycle_fault_of_transact_step hf)
  refine ⟨by rw [hstep], ?_⟩
  simp only [runTransactions, hstep]

/-- Settles O12: the stack raises at its two ends, a span where it leaves memory, and nothing else raises. -/
theorem onlyTheListedErrorsArise : Obligations.OnlyTheListedErrorsArise := by
  refine ⟨exec_ne_refused, fun i s f h => ?_⟩
  cases i with
  | call nnn =>
    rcases exec_call_cases nnn s with ⟨_, hnext⟩ | ⟨hfull, hfault⟩
    · rw [hnext] at h; cases h
    · rw [hfault] at h; cases h; exact .inl ⟨rfl, hfull, nnn, rfl⟩
  | ret =>
    rcases exec_ret_cases s with ⟨_, hnext⟩ | ⟨hempty, hfault⟩
    · rw [hnext] at h; cases h
    · rw [hfault] at h; cases h; exact .inr (.inl ⟨rfl, hempty, rfl⟩)
  | ldB x =>
    obtain ⟨hf, -, hspan⟩ := withSpan_fault_span h
    rw [State.base] at hf hspan
    exact .inr (.inr ⟨hf, .inl ⟨x, rfl, by omega⟩⟩)
  | stRegs x =>
    obtain ⟨hf, -, hspan⟩ := withSpan_fault_span h
    rw [State.base] at hf hspan
    exact .inr (.inr ⟨hf, .inr (.inl ⟨x, rfl, by omega⟩)⟩)
  | ldRegs x =>
    obtain ⟨hf, -, hspan⟩ := withSpan_fault_span h
    rw [State.base] at hf hspan
    exact .inr (.inr ⟨hf, .inr (.inr (.inl ⟨x, rfl, by omega⟩))⟩)
  | drw x y n =>
    obtain ⟨hf, hcount, hspan⟩ := withSpan_fault_span h
    rw [State.base] at hf hspan
    have hn : n ≠ 0#4 := by
      rintro rfl
      cases hcount
    exact .inr (.inr ⟨hf, .inr (.inr (.inr ⟨x, y, n, rfl, hn, by omega⟩))⟩)
  | _ => cases h

/-- Settles O36: each of the four instructions checks its span before all else. -/
theorem dataAccessPastMemoryRaisesOutOfBounds : Obligations.DataAccessPastMemoryRaisesOutOfBounds := by
  refine ⟨fun x s hspan => ?_, fun x s hspan => ⟨?_, ?_⟩, fun x y n s hn hspan => ?_,
    fun p i a s hrun hf => hrun.transact_step_of_fault hf p⟩
  · exact withSpan_of_not_fits (by decide) (by rw [State.base]; omega) _
  · exact withSpan_of_not_fits (Nat.succ_pos _) (by rw [State.base]; omega) _
  · exact withSpan_of_not_fits (Nat.succ_pos _) (by rw [State.base]; omega) _
  · exact withSpan_of_not_fits hn (by rw [State.base]; omega) _

end Sys2Proof.Safety
end

section
/-! PROOFS. The host's transactions (60_exceptions.md section 6, 70_reset_and_hazards.md section 1): tick_timers,
set_key and what ends a wait, reset, and load_program. -/

namespace Sys2Proof.Machine

/-! ### What a reset leaves in memory -/

/-- The font from 0x000, and above it what memory holds unlisted (R23, R200). -/
theorem State.readByte_resetTransaction (p : Params) (s : State) (a : Nat) :
    (resetTransaction p s).readByte a = if a < 80 then (fontBytes p.font).getD a 0#8 else resetByte a := by
  have hfits : Config.fontBase + (fontBytes p.font).length ≤ Config.memSize := by
    rw [length_fontBytes]
    decide
  refine (Memory.read_store [] Config.fontBase (fontBytes p.font) a rfl hfits).trans ?_
  simp only [length_fontBytes, Config.fontBase, Nat.zero_le, true_and, Nat.zero_add, Nat.sub_zero, Memory.read_nil]

/-- With the default font nothing differs from the reset image, so nothing is listed (R23). -/
theorem store_defaultFont : Memory.store [] Config.fontBase (fontBytes defaultFont) = [] := by
  have hfits : Config.fontBase + (fontBytes defaultFont).length ≤ Config.memSize := by
    rw [length_fontBytes]
    decide
  refine Memory.eq_of_read (Memory.wf_store [] _ _ rfl hfits) rfl fun a => ?_
  rw [Memory.read_store [] _ _ a rfl hfits]
  split <;> rfl

/-! ### What ends a wait -/

/-- A step during a wait is no end of it (R88). -/
theorem transact_step_mode {s : State} (h : s.mode = .awaitingKey) (p : Params) :
    (transact p .step s).1.mode = .awaitingKey := by
  rw [transact_step_of_next (cycle_of_awaitingKey h p), State.tickIf_eq]
  exact h

/-- The key after `set_key`, in a wait or outside one (R187). -/
theorem keyAt_setKey (k j : Nibble) (pressed : Bool) (s : State) :
    (setKey k pressed s).keyAt j = if j = k then pressed else s.keyAt j := by
  rcases setKey_cases k pressed s with ⟨hp, -, hset⟩ | ⟨-, hset⟩
  · rw [hset, hp]
    exact State.keyAt_setKeyAt s k j true
  · rw [hset, State.keyAt_setKeyAt]

/-- A press during a wait ends it (R187). -/
theorem setKey_of_press {s : State} (h : s.mode = .awaitingKey) (k : Nibble) :
    setKey k true s = (((s.setKeyAt k true).setV s.waitX (k.setWidth 8)).advance).leaveWait := by
  simp only [setKey, h]

/-- A release, and anything in Running mode, writes the key alone (R187). -/
theorem setKey_of_idle {s : State} {pressed : Bool} (h : s.mode = .running ∨ pressed = false) (k : Nibble) :
    setKey k pressed s = s.setKeyAt k pressed := by
  rcases setKey_cases k pressed s with ⟨hp, hwait, -⟩ | ⟨-, hset⟩
  · simp [hp, hwait] at h
  · exact hset

theorem setKey_mode_running_iff {s : State} (h : s.mode = .awaitingKey) (k : Nibble) (pressed : Bool) :
    (setKey k pressed s).mode = .running ↔ pressed = true := by
  cases pressed with
  | true => simp [setKey_of_press h]
  | false => simp [setKey_of_idle (.inr rfl), h]

theorem loadProgram_mode (bytes : List Byte) (s : State) : (loadProgram bytes s).1.mode = s.mode := by
  rcases loadProgram_cases bytes s with ⟨-, hload⟩ | ⟨-, hload⟩ <;> simp [hload]

end Sys2Proof.Machine

namespace Sys2Proof.Safety

open Sys2Proof.Machine

/-! ### The obligations -/

/-- Settles O9: the tick is one write of each timer. -/
theorem timerTickCountsDownToZero : Obligations.TimerTickCountsDownToZero := fun _ s =>
  ⟨s.tick, rfl, toNat_countDown s.dt, toNat_countDown s.st, rfl, frame_tick s⟩

/-- Settles O48: a press during a wait writes the key, the register, `PC` and the mode, `set_key` otherwise the key
alone; of the other transactions only reset writes the mode. -/
theorem onlyAKeyPressOrResetEndsTheWait : Obligations.OnlyAKeyPressOrResetEndsTheWait := by
  refine ⟨fun p k pressed s => ?_, fun p a s hwait => ?_⟩
  · refine ⟨setKey k pressed s, rfl, by rw [keyAt_setKey, if_pos rfl], fun j hj => by rw [keyAt_setKey, if_neg hj],
      fun hwait hp => ?_, fun hidle => ?_⟩
    · rw [hp, setKey_of_press hwait]
      refine ⟨?_, rfl, rfl, frame_keyPress s k _⟩
      rw [State.getV_leaveWait, State.getV_advance, State.getV_setV_same, BitVec.toNat_setWidth]
      omega
    · rw [setKey_of_idle hidle]
      exact ⟨rfl, frame_setKeyAt s k pressed⟩
  · cases a with
    | reset => exact ⟨fun _ => .inl rfl, fun _ => rfl⟩
    | setKey k pressed =>
      refine (setKey_mode_running_iff hwait k pressed).trans ⟨?_, ?_⟩
      · rintro rfl
        exact .inr ⟨k, rfl⟩
      · rintro (h | ⟨_, h⟩)
        · cases h
        · cases h
          rfl
    | step => simp [transact_step_mode hwait p]
    | loadProgram bytes => simp [transact, loadProgram_mode, hwait]
    | tickTimers | readFramebuffer | takeDrawFlag | isSoundActive => simp [transact, hwait]

/-- Settles O49: reset starts from State.reset and lays the font, which for the default font is nothing new. -/
theorem resetRebuildsEveryPieceOfState : Obligations.ResetRebuildsEveryPieceOfState := by
  refine ⟨fun p s => ⟨_, rfl, fun r => ?_, rfl, rfl, rfl, fun k hk => ?_, rfl, rfl, fun d c hd hc => ?_,
    fun a ha => ?_, cell_clear, fun k => ?_, rfl, rfl, rfl⟩, fun s => ?_⟩
  · exact Vector.getElem_replicate r.isLt
  · exact Vector.getElem_replicate hk
  · rw [State.readByte_resetTransaction, if_pos (by omega), getD_fontBytes p.font d c hd hc]
  · rw [State.readByte_resetTransaction, if_neg (by omega), resetByte_above a ha]
  · exact Vector.getElem_replicate k.isLt
  · have hmem := store_defaultFont
    simp only [transact, resetTransaction, State.resetFor, Params.default, hmem]
    rfl

/-- Settles O50: the bytes are one block stored from 0x200 on. -/
theorem loadProgramCopiesFromProgramBase : Obligations.LoadProgramCopiesFromProgramBase := by
  intro p bytes s hwf hlen
  have hread (a : Nat) := Memory.read_store s.mem 0x200 bytes a hwf (Nat.add_le_add_left hlen 0x200)
  rcases loadProgram_cases bytes s with ⟨-, hload⟩ | ⟨hlong, -⟩
  · refine ⟨_, hload, fun k hk => ?_, fun a ha => ?_, rfl, frame_setMem s _, ?_⟩
    · refine (hread (0x200 + k)).trans ?_
      rw [if_pos (by omega), Nat.add_sub_cancel_left, List.getD_eq_getElem _ _ hk]
    · exact (hread a).trans (if_neg (by omega))
    · rintro rfl
      rfl
  · omega

end Sys2Proof.Safety
end
